-- ==== Sys2Proof/Word.lean ====
section
/-! DEFINITION. The bit-vector types of the core: bytes of its buffers, 32-bit bus words, 64-bit
register pairs (00_scope.md R10, R12). -/

namespace Sys2Proof

/-- A byte (R12). -/
abbrev Byte := BitVec 8

/-- A bus word and register: REG_BITS = 32 (R10). -/
abbrev Word := BitVec 32

/-- A 64-bit value held in two registers, the high word first (20_memory.md R88). -/
abbrev DWord := BitVec 64

end Sys2Proof
end

