-- ==== Sys2Proof/Config.lean ====
section
/-! DEFINITION. The parameters of the core: those the source and the spec fix (00_scope.md R9, R10)
and the one left open that a model takes as a constant, OTP_BASE (R11). The other open parameter,
LATENCY, is no number of this model: the schedule `State.turns` says when a completion comes, and
claims hold for every schedule (notes/assumptions/2.md). -/

namespace Sys2Proof.Config

/-- DIGITS_MIN (R9). -/
def digitsMin : Nat := 6

/-- DIGITS_MAX (R9). -/
def digitsMax : Nat := 8

/-- DIGITS_DEFAULT, the reset value of CFG.DIGITS (R9, R38). -/
def digitsDefault : BitVec 4 := 6

/-- ALG_DEFAULT = SHA1, the reset value of CFG.ALG (R9, R38). -/
def algDefault : BitVec 2 := 0

/-- STEP_DEFAULT in seconds, the reset value of STEP (R9, R39). -/
def stepDefault : Word := 30

/-- KEY_BUF_BYTES: the key buffer's size and the longest key (R10, R51). -/
def keyBufBytes : Nat := 128

/-- B: the block size of both hash functions, in bytes (R10, R170). -/
def blockBytes : Nat := 64

/-- WINDOW_BYTES: the size of the register window (R10, R80). -/
def windowBytes : Nat := 0x200

/-- REG_BITS: the one admitted access width (R10, R82). -/
def regBits : Nat := 32

/-- The constant ID register (R10, R32). -/
def idValue : Word := 0x4F545031

/-- The constant PARAM register (R10, R33). -/
def paramValue : Word := 0x00000380

/-- Which WINDOW_BYTES-sized page of the host's bus the window occupies: OPEN (R11, O1). It has no
body, so a claim is true wherever the platform maps the window (DESIGN CHOICE, notes/assumptions/4.md). -/
opaque otpPage : Nat

/-- OTP_BASE, the bus address of the window, aligned to WINDOW_BYTES (R11, R80). -/
def otpBase : Nat := windowBytes * otpPage

end Sys2Proof.Config
end

