-- ==== Sys2Proof/Syntax.lean ====
section
/-! DEFINITION. The names of the spec as data: the commands (the ONE inductive `Instr`, a constructor
for each row of spec/opcode_table.json), the algorithms, the error codes, the registers of the window
and the statements of the host-program form of 30_encoding.md R123-R125. -/

namespace Sys2Proof

/-- The nine commands of 30_encoding.md R113. A command has no operand field: its operands are the
operand registers (R110, R112). -/
inductive Instr where
  | nop
  | encode
  | tencode
  | hmac
  | trunc
  | format
  | hotp
  | totp
  | zeroize
deriving DecidableEq, Repr

/-- The algorithms {SHA1, SHA256} (00_scope.md R19, 30_encoding.md R120). -/
inductive Alg where
  | sha1
  | sha256
deriving DecidableEq, Repr

/-- The error codes of 60_exceptions.md R270. Codes 8-15 are never reported, so no constructor stands
for them (93_implementation_defined.md O6). -/
inductive ErrorCode where
  | none
  | outOfBounds
  | unsupportedAlgorithm
  | illegalCmd
  | badKeyLen
  | badStep
  | negTimestamp
  | sequence
deriving DecidableEq, Repr

/-- The registers of the window (10_state.md R31). -/
inductive Reg where
  | id
  | param
  | ctrl
  | cmd
  | status
  | cfg
  | step
  | keyLen
  | counterHi
  | counterLo
  | timeHi
  | timeLo
  | msgHi
  | msgLo
  | dlen
  | trunc
  | code
  | codeStr0
  | codeStr1
  | codeLen
  | digest (k : Fin 8)
  | key (k : Fin 32)
deriving DecidableEq, Repr

/-- A statement the host executes (30_encoding.md R123), its label resolved to the index of a
statement. `off` is the window offset of the register, or the `@0xNNN` of the source line; `size` is
the access's width in bits, 32 in every statement of the spec's own form (20_memory.md R82 and R84
say what another width does). A temporary is named by a number. -/
inductive Stmt where
  | wr (off size : Nat) (v : Word)
  | rd (off size : Nat) (t : Nat)
  | bnz (t : Nat) (mask : Word) (target : Nat)
  | halt
deriving DecidableEq, Repr

/-- A line of a host program as it is written: a label, a statement (R123) or a pseudo-statement
(R124). Labels and temporaries are named by numbers; the string of `key` is given as its bytes. -/
inductive Line where
  | label (l : Nat)
  | wr (off : Nat) (v : Word)
  | rd (off : Nat) (t : Nat)
  | bnz (t : Nat) (mask : Word) (l : Nat)
  | halt
  | cmd (i : Instr)
  | wait
  | clr
  | key (secret : List Byte)
  | counter (c : DWord)
  | time (t : DWord)
  | cfg (d a : Word)
deriving DecidableEq, Repr

/-- A bus transaction as a program's encoding lists it: `W off v` or `R off` (R125). -/
inductive Transaction where
  | w (off : Nat) (v : Word)
  | r (off : Nat)
deriving DecidableEq, Repr

end Sys2Proof
end

