-- ==== Sys2Proof/WellFormed.lean ====
section
/-! DEFINITION. Static checks. A command has no operand, so every `Instr` is well formed; what can be
ill formed is a command WORD (30_encoding.md R114, R115), a window access (20_memory.md R82) and a
host program (R123, R124). None of them gates the machine: it gives each of these cases the effect
the spec gives it (ILLEGAL_CMD, a bus error). -/

namespace Sys2Proof

/-- Every command is well formed: R110 gives it no operand field a value could be out of range in. -/
def Instr.wellFormed : Instr → Bool
  | .nop | .encode | .tencode | .hmac | .trunc | .format | .hotp | .totp | .zeroize => true

/-- RSV, bits [31:4], is zero (R110, R115). -/
def reservedBitsZero (w : Word) : Bool := w.toNat / 16 == 0

/-- OP, bits [3:0], is one of the nine opcodes and not the reserved 0x9-0xF (R113, R114). -/
def opcodeAssigned (w : Word) : Bool := w.toNat % 16 ≤ 8

/-- A word that is a legal command (R113). -/
def commandWordWf (w : Word) : Bool := reservedBitsZero w && opcodeAssigned w

/-- The offsets of the window that hold a register, read off 20_memory.md R81 range by range. -/
def offsetInUse (off : Nat) : Bool :=
  off < 0x050 || (0x060 ≤ off && off < 0x080) || (0x100 ≤ off && off < 0x180)

/-- An access the window admits: 32 bits wide, a multiple of 4, not reserved (R82). -/
def accessWf (off size : Nat) : Bool :=
  size == Config.regBits && off % 4 == 0 && offsetInUse off

/-- A statement of a program of `n` statements: its access is admitted, its branch target exists. -/
def Stmt.wellFormed (n : Nat) : Stmt → Bool
  | .wr off size _ => accessWf off size
  | .rd off size _ => accessWf off size
  | .bnz _ _ target => target < n
  | .halt => true

/-- The labels a program declares. -/
def declaredLabels (ls : List Line) : List Nat :=
  ls.filterMap fun
    | .label l => some l
    | _ => none

/-- A line of a program that declares `labels`: a branch names one of them, a key fits the buffer
(R124: n ≤ 128). -/
def Line.wellFormed (labels : List Nat) : Line → Bool
  | .bnz _ _ l => labels.contains l
  | .key secret => secret.length ≤ Config.keyBufBytes
  | .label _ | .wr _ _ | .rd _ _ | .halt | .cmd _ | .wait | .clr | .counter _ | .time _
  | .cfg _ _ => true

/-- A source program: every line well formed and no label declared twice. -/
def programWf (ls : List Line) : Bool :=
  ls.all (Line.wellFormed (declaredLabels ls)) && decide (declaredLabels ls).Nodup

end Sys2Proof
end

