-- ==== Sys2Proof/Decode.lean ====
section
/-! DEFINITION. Command words to commands and back (30_encoding.md R110-R116), error codes and the
algorithm selector to their numbers (60_exceptions.md R270, 30_encoding.md R120), and window offsets
to registers and back (10_state.md R31). -/

namespace Sys2Proof

/-- What a command word stands for: a command, or why it is illegal. -/
inductive Decoded where
  /-- a legal word (R113) -/
  | command (i : Instr)
  /-- a bit of RSV, bits [31:4], is set (R115) -/
  | reservedBits
  /-- RSV is zero and OP is 0x9..0xF (R114) -/
  | reservedOpcode
deriving DecidableEq, Repr

/-- `Decode(w)` of R116, total on every 32-bit word, naming the two kinds of illegal word. -/
def decodeWord (w : Word) : Decoded :=
  if w.extractLsb' 4 28 ≠ 0#28 then .reservedBits
  else match (w.extractLsb' 0 4).toNat with
    | 0x0 => .command .nop
    | 0x1 => .command .encode
    | 0x2 => .command .tencode
    | 0x3 => .command .hmac
    | 0x4 => .command .trunc
    | 0x5 => .command .format
    | 0x6 => .command .hotp
    | 0x7 => .command .totp
    | 0x8 => .command .zeroize
    | _ => .reservedOpcode

/-- The command of a legal word, none for an illegal one (R116). -/
def decode (w : Word) : Option Instr :=
  match decodeWord w with
  | .command i => some i
  | .reservedBits => none
  | .reservedOpcode => none

/-- OP, bits [3:0] of a command's word (R113). -/
def opcode : Instr → BitVec 4
  | .nop => 0x0
  | .encode => 0x1
  | .tencode => 0x2
  | .hmac => 0x3
  | .trunc => 0x4
  | .format => 0x5
  | .hotp => 0x6
  | .totp => 0x7
  | .zeroize => 0x8

/-- The one word of a command: OP in bits [3:0], zero in bits [31:4] (R113). -/
def encode (i : Instr) : Word := 0#28 ++ opcode i

/-- The decoder on the low `nbits` bits of a number, as spec/opcode_table.json numbers them. A command
is exactly one 32-bit word (R111), so a number that needs more bits is no command. -/
def decodeTableWord (nbits w : Nat) : Option Instr :=
  if w % 2 ^ nbits < 2 ^ 32 then decode (BitVec.ofNat 32 (w % 2 ^ nbits)) else none

/-- STATUS.ERRCODE of an error (60_exceptions.md R270). -/
def ErrorCode.bits : ErrorCode → BitVec 4
  | .none => 0
  | .outOfBounds => 1
  | .unsupportedAlgorithm => 2
  | .illegalCmd => 3
  | .badKeyLen => 4
  | .badStep => 5
  | .negTimestamp => 6
  | .sequence => 7

/-- CFG.ALG: 0 is SHA1, 1 is SHA256, 2 and 3 are not recognised (30_encoding.md R120). -/
def selectAlg (a : BitVec 2) : Option Alg :=
  match a.toNat with
  | 0 => some .sha1
  | 1 => some .sha256
  | _ => none

/-- The window offset of a register (10_state.md R31). -/
def Reg.offset : Reg → Nat
  | .id => 0x000
  | .param => 0x004
  | .ctrl => 0x008
  | .cmd => 0x00C
  | .status => 0x010
  | .cfg => 0x014
  | .step => 0x018
  | .keyLen => 0x01C
  | .counterHi => 0x020
  | .counterLo => 0x024
  | .timeHi => 0x028
  | .timeLo => 0x02C
  | .msgHi => 0x030
  | .msgLo => 0x034
  | .dlen => 0x038
  | .trunc => 0x03C
  | .code => 0x040
  | .codeStr0 => 0x044
  | .codeStr1 => 0x048
  | .codeLen => 0x04C
  | .digest k => 0x060 + 4 * k.val
  | .key k => 0x100 + 4 * k.val

/-- The register that starts at a word index of the window, none for a reserved one (R31, R81). -/
def regOfIndex : Nat → Option Reg
  | 0 => some .id
  | 1 => some .param
  | 2 => some .ctrl
  | 3 => some .cmd
  | 4 => some .status
  | 5 => some .cfg
  | 6 => some .step
  | 7 => some .keyLen
  | 8 => some .counterHi
  | 9 => some .counterLo
  | 10 => some .timeHi
  | 11 => some .timeLo
  | 12 => some .msgHi
  | 13 => some .msgLo
  | 14 => some .dlen
  | 15 => some .trunc
  | 16 => some .code
  | 17 => some .codeStr0
  | 18 => some .codeStr1
  | 19 => some .codeLen
  | n =>
    if h : 24 ≤ n ∧ n < 32 then some (.digest ⟨n - 24, by omega⟩)
    else if h : 64 ≤ n ∧ n < 96 then some (.key ⟨n - 64, by omega⟩)
    else none

/-- The register an access reaches if the window admits it: 32 bits wide, at a multiple of 4, not
reserved (20_memory.md R82). -/
def admitted (off size : Nat) : Option Reg :=
  if size = Config.regBits ∧ off % 4 = 0 then regOfIndex (off / 4) else none

end Sys2Proof
end

