-- ==== Sys2Proof/Machine/State.lean ====
section
/-! DEFINITION. The state of the core (10_state.md), grouped as R30 groups it: status, operand
registers and key buffer, result registers and their buffers, the sequencer; with the level of the
reset input, the host program that drives the window (30_encoding.md R123) and the schedule that says
whose turn is next. A field has exactly the bits the spec gives it, so a reserved bit has nowhere to
be held (R57). ID, PARAM and CMD hold no state (R32, R33, R35). The core has no memory (R14, R80). -/

namespace Sys2Proof.Machine

/-- STATUS without BUSY, which is the sequencer's `busy` (R36, R37). -/
structure Status where
  /-- bit 1, W1C -/
  done : Bool
  /-- bit 2, W1C -/
  err : Bool
  /-- bit 3, W1C -/
  wign : Bool
  /-- bits [11:8] -/
  errCode : ErrorCode
  /-- bits [15:12] -/
  lastOp : BitVec 4
  /-- bit 16 -/
  msgValid : Bool
  /-- bit 17 -/
  digestValid : Bool
  /-- bit 18 -/
  truncValid : Bool
  /-- bit 19 -/
  codeValid : Bool
deriving DecidableEq, Repr

/-- The registers the host writes and commands read, with the key buffer (R38-R42, R50, R51). -/
structure Operands where
  /-- CFG[3:0] -/
  digits : BitVec 4
  /-- CFG[5:4] -/
  alg : BitVec 2
  /-- STEP -/
  timeStep : Word
  /-- KEYLEN[7:0] -/
  keyLen : BitVec 8
  counterHi : Word
  counterLo : Word
  timeHi : Word
  timeLo : Word
  /-- KEY[0..127] -/
  key : Vector Byte 128
deriving DecidableEq, Repr

/-- What commands write: the message, digest and code-string buffers, DLEN, TRUNC, CODE and CODE_LEN
(R43-R49, R52, R53). -/
structure Results where
  /-- MSG[0..7], shown by MSG_HI and MSG_LO -/
  msg : Vector Byte 8
  /-- DIG[0..31], shown by DIGEST0-DIGEST7 -/
  dig : Vector Byte 32
  /-- DLEN[7:0] -/
  digestLen : BitVec 8
  /-- TRUNC[30:0] -/
  trunc : BitVec 31
  code : Word
  /-- STR[0..7], shown by CODE_STR0 and CODE_STR1 -/
  str : Vector Byte 8
  /-- CODE_LEN[3:0] -/
  codeLen : BitVec 4
deriving DecidableEq, Repr

/-- The host program in progress (R123): its statements, the index of the next one, its temporaries
(strictly rising names, no entry that holds 0, an unlisted one reads 0) and whether it has reached
`halt` (70_reset_and_hazards.md R322). The core does not see any of it. -/
structure HostAgent where
  prog : List Stmt
  pc : Nat
  temps : List (Nat × Word)
  halted : Bool
deriving DecidableEq, Repr

/-- Whose turn a step is: the host's next statement, the sequencer, or an edge of `rst`. A list of
them is one interleaving that 40_command_execution.md R141 and 70_reset_and_hazards.md R310 allow. -/
inductive Turn where
  | host
  | core
  | assertRst
  | releaseRst
deriving DecidableEq, Repr

/-- The machine's state. -/
structure State where
  /-- CTRL[0] (R34) -/
  irqEn : Bool
  status : Status
  ops : Operands
  res : Results
  /-- s.busy, shown as STATUS[0] (R54) -/
  busy : Bool
  /-- s.cmd, the word of the command in progress, not read while idle (R54) -/
  cmd : Word
  /-- the level of the reset input (R300) -/
  rst : Bool
  host : HostAgent
  /-- the schedule: whose turn the next steps are -/
  turns : List Turn
deriving DecidableEq, Repr

/-- Why a run stops. Every one is the host program's fault: no command ends in one. -/
inductive Fault where
  /-- Raised by a host access that the window does not admit (R84): not 32 bits wide, not at a multiple
  of 4, at a reserved offset or outside the window. Safe: the core gives a bus error response, changes
  nothing and returns no data, and the model stops the host program there. -/
  | busError
  /-- Raised by a host access while `rst` is asserted (R303). Safe: the core admits no access then and
  the model stops the host program there. -/
  | accessInReset
deriving DecidableEq, Repr

/-- Why a step has no meaning. No arm of `exec` uses it: every command is modelled. -/
inductive Refusal where
  /-- An instruction of the opcode table that has no meaning yet. Raised by nothing in this model.
  Safe: the model stops. -/
  | notModelled (mnemonic : String)
deriving DecidableEq, Repr

/-- What `exec` and `step` answer. -/
abbrev Outcome := Host.Outcome State Fault Refusal

/-- STATUS after reset: 0 (R301). -/
def Status.reset : Status where
  done := false
  err := false
  wign := false
  errCode := .none
  lastOp := 0#4
  msgValid := false
  digestValid := false
  truncValid := false
  codeValid := false

/-- The operand registers after reset: the source's default Options, all else 0 (R301). -/
def Operands.reset : Operands where
  digits := Config.digitsDefault
  alg := Config.algDefault
  timeStep := Config.stepDefault
  keyLen := 0#8
  counterHi := 0#32
  counterLo := 0#32
  timeHi := 0#32
  timeLo := 0#32
  key := Vector.replicate 128 0#8

/-- The result registers and their buffers after reset: 0 (R301). -/
def Results.reset : Results where
  msg := Vector.replicate 8 0#8
  dig := Vector.replicate 32 0#8
  digestLen := 0#8
  trunc := 0#31
  code := 0#32
  str := Vector.replicate 8 0#8
  codeLen := 0#4

/-- No host program: nothing is loaded by the machine itself. -/
def HostAgent.empty : HostAgent where
  prog := []
  pc := 0
  temps := []
  halted := false

/-- The machine right after reset (R300-R302): idle, the interrupt masked, `rst` released. `cmd` is 0:
R301 leaves it unspecified and it is not read while idle (DESIGN CHOICE, notes/assumptions/1.md). -/
def State.reset : State where
  irqEn := false
  status := Status.reset
  ops := Operands.reset
  res := Results.reset
  busy := false
  cmd := 0#32
  rst := false
  host := HostAgent.empty
  turns := []

end Sys2Proof.Machine
end

