-- ==== Sys2Proof/Machine/Flags.lean ====
section
/-! DEFINITION. STATUS and the interrupt line: the register as a word, the host's write-1-to-clear,
the WIGN event, what a completion records, and `irq` (10_state.md R36, R37, 60_exceptions.md R280). -/

namespace Sys2Proof.Machine

/-- One status bit as a one-bit vector. -/
def flagBit (b : Bool) : BitVec 1 := BitVec.ofBool b

/-- STATUS as the host reads it: [31:20] 0, the valid flags [19:16], LASTOP [15:12], ERRCODE [11:8],
[7:4] 0, WIGN, ERR, DONE, BUSY (R36, R37). -/
def statusWord (s : State) : Word :=
  0#12 ++ flagBit s.status.codeValid ++ flagBit s.status.truncValid ++ flagBit s.status.digestValid
    ++ flagBit s.status.msgValid ++ s.status.lastOp ++ s.status.errCode.bits ++ 0#4
    ++ flagBit s.status.wign ++ flagBit s.status.err ++ flagBit s.status.done ++ flagBit s.busy

/-- A host write of v to STATUS clears DONE, ERR and WIGN where bits 1, 2 and 3 of v are 1 and changes
nothing else (R36). -/
def clearEvents (v : Word) (st : Status) : Status :=
  { st with
    done := st.done && !v.getLsbD 1
    err := st.err && !v.getLsbD 2
    wign := st.wign && !v.getLsbD 3 }

/-- STATUS after the completion of a command word with code e: LASTOP, ERRCODE, ERR if e is an error,
DONE (40_command_execution.md R143). -/
def recordCompletion (cmd : Word) (e : ErrorCode) (st : Status) : Status :=
  { st with
    lastOp := cmd.extractLsb' 0 4
    errCode := e
    err := if e = .none then st.err else true
    done := true }

/-- The interrupt output: `irq = CTRL.IRQ_EN & STATUS.DONE` (R280). -/
def irq (s : State) : Bool := s.irqEn && s.status.done

end Sys2Proof.Machine
end

