-- ==== Sys2Proof/Machine/Bytes.lean ====
section
/-! DEFINITION. Byte order and byte buffers: be32 and be64 (00_scope.md R15, 41_counter_codec.md R160),
the packing of buffers into bus words (20_memory.md R87), and filling a buffer from a byte sequence. -/

namespace Sys2Proof.Machine

/-- `be32(b0, b1, b2, b3)`: b0 is bits [31:24] (R15). -/
def be32 (b0 b1 b2 b3 : Byte) : Word := b0 ++ b1 ++ b2 ++ b3

/-- The four bytes of a word, big-endian: byte 0 is bits [31:24] (R87, 42_hmac_engine.md R172). -/
def wordBytes (w : Word) : List Byte :=
  [w.extractLsb' 24 8, w.extractLsb' 16 8, w.extractLsb' 8 8, w.extractLsb' 0 8]

/-- `be64(c)`: byte i is c[63-8i : 56-8i] (R160). -/
def be64 (c : DWord) : List Byte :=
  [c.extractLsb' 56 8, c.extractLsb' 48 8, c.extractLsb' 40 8, c.extractLsb' 32 8,
   c.extractLsb' 24 8, c.extractLsb' 16 8, c.extractLsb' 8 8, c.extractLsb' 0 8]

/-- A buffer of n bytes that holds a byte sequence from index 0 and 0x00 after it; what does not fit is
dropped (R52, R53: the fill after a 20-byte digest and after the last digit). -/
def fillBuffer (n : Nat) (bs : List Byte) : Vector Byte n :=
  ⟨((bs ++ List.replicate n 0#8).take n).toArray, by simp⟩

/-- Byte i of a buffer; 0x00 past its end (DESIGN CHOICE, notes/assumptions/10.md). -/
def byteAt {n : Nat} (b : Vector Byte n) (i : Nat) : Byte := b.toList.getD i 0#8

/-- Word k of a buffer: its bytes 4k to 4k+3, big-endian (R87, 10_state.md R43, R47, R49). -/
def wordAt {n : Nat} (b : Vector Byte n) (k : Nat) : Word :=
  be32 (byteAt b (4 * k)) (byteAt b (4 * k + 1)) (byteAt b (4 * k + 2)) (byteAt b (4 * k + 3))

/-- Word k of a buffer replaced by the bytes of v, big-endian; no other byte changes (R50). -/
def setWordAt {n : Nat} (b : Vector Byte n) (k : Nat) (v : Word) : Vector Byte n :=
  (((b.setIfInBounds (4 * k) (v.extractLsb' 24 8)).setIfInBounds (4 * k + 1)
    (v.extractLsb' 16 8)).setIfInBounds (4 * k + 2) (v.extractLsb' 8 8)).setIfInBounds (4 * k + 3)
    (v.extractLsb' 0 8)

end Sys2Proof.Machine
end

