-- ==== Sys2Proof/Machine/Hash.lean ====
section
/-! DEFINITION. SHA-1, SHA-256 and HMAC over byte sequences, as 42_hmac_engine.md gives them in full. -/

namespace Sys2Proof.Machine

/-! ## Padding and blocks, shared by both hashes -/

/-- The number k of zero bytes: the least k with (L + 1 + k + 8) mod 64 = 0 (R171). -/
def padZeros (len : Nat) : Nat :=
  (Config.blockBytes - (len + 9) % Config.blockBytes) % Config.blockBytes

/-- `Pad(M) = M || 0x80 || Z || be64(8 * L)` (R171). -/
def pad (m : List Byte) : List Byte :=
  m ++ [0x80#8] ++ List.replicate (padZeros m.length) 0x00#8 ++ be64 (BitVec.ofNat 64 (8 * m.length))

/-- The first n blocks of a padded sequence, 64 bytes each, in order (R171). -/
def blocks : Nat → List Byte → List (List Byte)
  | 0, _ => []
  | n + 1, bs => bs.take Config.blockBytes :: blocks n (bs.drop Config.blockBytes)

/-- The blocks M(1), ..., M(N) of `Pad(M)`. -/
def paddedBlocks (m : List Byte) : List (List Byte) :=
  blocks ((pad m).length / Config.blockBytes) (pad m)

/-- A block as big-endian 32-bit words (R172). -/
def blockWords : List Byte → List Word
  | b0 :: b1 :: b2 :: b3 :: rest => be32 b0 b1 b2 b3 :: blockWords rest
  | _ => []

/-- `W[t]` of a schedule under construction. -/
def schedWord (w : List Word) (t : Nat) : Word := w.getD t 0#32

/-- A message schedule extended n times: each new word is computed from the words before it. -/
def extendSchedule (next : List Word → Word) : Nat → List Word → List Word
  | 0, w => w
  | n + 1, w => extendSchedule next n (w ++ [next w])

/-! ## SHA-1 -/

/-- The hash value H0..H4, or the working variables a..e (R173, R176). -/
structure Sha1Vars where
  a : Word
  b : Word
  c : Word
  d : Word
  e : Word
deriving DecidableEq, Repr

/-- The initial hash value (R173). -/
def sha1Init : Sha1Vars := ⟨0x67452301, 0xEFCDAB89, 0x98BADCFE, 0x10325476, 0xC3D2E1F0⟩

/-- The round function f_t (R174). -/
def sha1F (t : Nat) (b c d : Word) : Word :=
  if t < 20 then (b &&& c) ^^^ (~~~b &&& d)
  else if t < 40 then b ^^^ c ^^^ d
  else if t < 60 then (b &&& c) ^^^ (b &&& d) ^^^ (c &&& d)
  else b ^^^ c ^^^ d

/-- The round constant K_t (R174). -/
def sha1K (t : Nat) : Word :=
  if t < 20 then 0x5A827999
  else if t < 40 then 0x6ED9EBA1
  else if t < 60 then 0x8F1BBCDC
  else 0xCA62C1D6

/-- `W[t] = ROTL_1(W[t-3] ^ W[t-8] ^ W[t-14] ^ W[t-16])`, t being the number of words so far (R175). -/
def sha1NextWord (w : List Word) : Word :=
  let t := w.length
  (schedWord w (t - 3) ^^^ schedWord w (t - 8) ^^^ schedWord w (t - 14)
    ^^^ schedWord w (t - 16)).rotateLeft 1

/-- W[0..79] of one block (R175). -/
def sha1Schedule (block : List Byte) : List Word :=
  extendSchedule sha1NextWord 64 (blockWords block)

/-- One round, on `(W[t], t)` (R176). -/
def sha1Round (v : Sha1Vars) (wt : Word × Nat) : Sha1Vars where
  a := v.a.rotateLeft 5 + sha1F wt.2 v.b v.c v.d + v.e + sha1K wt.2 + wt.1
  b := v.a
  c := v.b.rotateLeft 30
  d := v.c
  e := v.d

/-- The compression of one block into the hash value (R176). -/
def sha1Compress (h : Sha1Vars) (block : List Byte) : Sha1Vars :=
  let v := (sha1Schedule block).zipIdx.foldl sha1Round h
  ⟨h.a + v.a, h.b + v.b, h.c + v.c, h.d + v.d, h.e + v.e⟩

/-- H0..H4 as 20 bytes, big-endian, H0 first (R172). -/
def sha1Output (h : Sha1Vars) : List Byte :=
  wordBytes h.a ++ wordBytes h.b ++ wordBytes h.c ++ wordBytes h.d ++ wordBytes h.e

/-- SHA-1 of a byte sequence (R177). -/
def sha1 (m : List Byte) : List Byte :=
  sha1Output ((paddedBlocks m).foldl sha1Compress sha1Init)

/-! ## SHA-256 -/

/-- The hash value H0..H7, or the working variables a..h (R180, R184). -/
structure Sha256Vars where
  a : Word
  b : Word
  c : Word
  d : Word
  e : Word
  f : Word
  g : Word
  h : Word
deriving DecidableEq, Repr

/-- The initial hash value (R180). -/
def sha256Init : Sha256Vars :=
  ⟨0x6A09E667, 0xBB67AE85, 0x3C6EF372, 0xA54FF53A, 0x510E527F, 0x9B05688C, 0x1F83D9AB, 0x5BE0CD19⟩

/-- The round constants K[0..63], eight a row as R181 lists them. -/
def sha256KTable : List Word :=
  [0x428a2f98, 0x71374491, 0xb5c0fbcf, 0xe9b5dba5, 0x3956c25b, 0x59f111f1, 0x923f82a4, 0xab1c5ed5]
  ++ [0xd807aa98, 0x12835b01, 0x243185be, 0x550c7dc3, 0x72be5d74, 0x80deb1fe, 0x9bdc06a7, 0xc19bf174]
  ++ [0xe49b69c1, 0xefbe4786, 0x0fc19dc6, 0x240ca1cc, 0x2de92c6f, 0x4a7484aa, 0x5cb0a9dc, 0x76f988da]
  ++ [0x983e5152, 0xa831c66d, 0xb00327c8, 0xbf597fc7, 0xc6e00bf3, 0xd5a79147, 0x06ca6351, 0x14292967]
  ++ [0x27b70a85, 0x2e1b2138, 0x4d2c6dfc, 0x53380d13, 0x650a7354, 0x766a0abb, 0x81c2c92e, 0x92722c85]
  ++ [0xa2bfe8a1, 0xa81a664b, 0xc24b8b70, 0xc76c51a3, 0xd192e819, 0xd6990624, 0xf40e3585, 0x106aa070]
  ++ [0x19a4c116, 0x1e376c08, 0x2748774c, 0x34b0bcb5, 0x391c0cb3, 0x4ed8aa4a, 0x5b9cca4f, 0x682e6ff3]
  ++ [0x748f82ee, 0x78a5636f, 0x84c87814, 0x8cc70208, 0x90befffa, 0xa4506ceb, 0xbef9a3f7, 0xc67178f2]

/-- `K[t]` (R181). -/
def sha256K (t : Nat) : Word := sha256KTable.getD t 0#32

/-- `Ch(x, y, z)` (R182). -/
def ch (x y z : Word) : Word := (x &&& y) ^^^ (~~~x &&& z)

/-- `Maj(x, y, z)` (R182). -/
def maj (x y z : Word) : Word := (x &&& y) ^^^ (x &&& z) ^^^ (y &&& z)

/-- `S0(x)`, of the working variable a (R182). -/
def bigSigma0 (x : Word) : Word := x.rotateRight 2 ^^^ x.rotateRight 13 ^^^ x.rotateRight 22

/-- `S1(x)`, of the working variable e (R182). -/
def bigSigma1 (x : Word) : Word := x.rotateRight 6 ^^^ x.rotateRight 11 ^^^ x.rotateRight 25

/-- `s0(x)`, of a schedule word (R182). -/
def smallSigma0 (x : Word) : Word := x.rotateRight 7 ^^^ x.rotateRight 18 ^^^ (x >>> 3)

/-- `s1(x)`, of a schedule word (R182). -/
def smallSigma1 (x : Word) : Word := x.rotateRight 17 ^^^ x.rotateRight 19 ^^^ (x >>> 10)

/-- `W[t] = s1(W[t-2]) + W[t-7] + s0(W[t-15]) + W[t-16]` modulo 2^32, t being the number of words so
far (R183). -/
def sha256NextWord (w : List Word) : Word :=
  let t := w.length
  smallSigma1 (schedWord w (t - 2)) + schedWord w (t - 7) + smallSigma0 (schedWord w (t - 15))
    + schedWord w (t - 16)

/-- W[0..63] of one block (R183). -/
def sha256Schedule (block : List Byte) : List Word :=
  extendSchedule sha256NextWord 48 (blockWords block)

/-- T1 of a round (R184). -/
def sha256T1 (v : Sha256Vars) (wt : Word × Nat) : Word :=
  v.h + bigSigma1 v.e + ch v.e v.f v.g + sha256K wt.2 + wt.1

/-- T2 of a round (R184). -/
def sha256T2 (v : Sha256Vars) : Word := bigSigma0 v.a + maj v.a v.b v.c

/-- One round, on `(W[t], t)` (R184). -/
def sha256Round (v : Sha256Vars) (wt : Word × Nat) : Sha256Vars where
  a := sha256T1 v wt + sha256T2 v
  b := v.a
  c := v.b
  d := v.c
  e := v.d + sha256T1 v wt
  f := v.e
  g := v.f
  h := v.g

/-- The compression of one block into the hash value (R184). -/
def sha256Compress (h : Sha256Vars) (block : List Byte) : Sha256Vars :=
  let v := (sha256Schedule block).zipIdx.foldl sha256Round h
  ⟨h.a + v.a, h.b + v.b, h.c + v.c, h.d + v.d, h.e + v.e, h.f + v.f, h.g + v.g, h.h + v.h⟩

/-- H0..H7 as 32 bytes, big-endian, H0 first (R172). -/
def sha256Output (h : Sha256Vars) : List Byte :=
  wordBytes h.a ++ wordBytes h.b ++ wordBytes h.c ++ wordBytes h.d ++ wordBytes h.e ++ wordBytes h.f
    ++ wordBytes h.g ++ wordBytes h.h

/-- SHA-256 of a byte sequence (R185). -/
def sha256 (m : List Byte) : List Byte :=
  sha256Output ((paddedBlocks m).foldl sha256Compress sha256Init)

/-! ## HMAC -/

/-- H, the hash function of an algorithm (R170). -/
def hashOf : Alg → List Byte → List Byte
  | .sha1 => sha1
  | .sha256 => sha256

/-- DLEN, the digest length of an algorithm in bytes (R170). -/
def digestBytes : Alg → Nat
  | .sha1 => 20
  | .sha256 => 32

/-- K0: the key, or its hash when it is longer than a block, followed by 0x00 to a whole block (R190,
R192, R193). -/
def hmacKeyBlock (a : Alg) (key : List Byte) : List Byte :=
  let k := if key.length > Config.blockBytes then hashOf a key else key
  k ++ List.replicate (Config.blockBytes - k.length) 0x00#8

/-- A byte sequence with every byte exclusive-or'ed with one byte, as with ipad and opad (R190). -/
def xorBytes (p : Byte) (bs : List Byte) : List Byte := bs.map (· ^^^ p)

/-- `HMAC_H(K, m) = H((K0 ^ opad) || H((K0 ^ ipad) || m))` (R190). -/
def hmac (a : Alg) (key m : List Byte) : List Byte :=
  let k0 := hmacKeyBlock a key
  hashOf a (xorBytes 0x5C#8 k0 ++ hashOf a (xorBytes 0x36#8 k0 ++ m))

end Sys2Proof.Machine
end

