-- ==== Sys2Proof/Machine/Operands.lean ====
section
/-! DEFINITION. The operand registers as commands read them (30_encoding.md R120-R122), the checks on
them (60_exceptions.md R270), and the host's writes to them (10_state.md R38-R42, R50). -/

namespace Sys2Proof.Machine

/-- `C = COUNTER_HI * 2^32 + COUNTER_LO` (10_state.md R41, 20_memory.md R88). -/
def counterOf (s : State) : DWord := s.ops.counterHi ++ s.ops.counterLo

/-- The 64-bit pattern TIME_HI:TIME_LO (R42). -/
def timestampOf (s : State) : DWord := s.ops.timeHi ++ s.ops.timeLo

/-- The secret `KEY[0], ..., KEY[KEYLEN-1]` (R51). -/
def secretOf (s : State) : List Byte := s.ops.key.toList.take s.ops.keyLen.toNat

/-- The message `MSG[0..7]` (R52). -/
def messageOf (s : State) : List Byte := s.res.msg.toList

/-- The digest `DIG[0..DLEN-1]` (43_truncator.md R221). -/
def digestOf (s : State) : List Byte := s.res.dig.toList.take s.res.digestLen.toNat

/-- CFG.DIGITS is not 6, 7 or 8: OUT_OF_BOUNDS (R270). -/
def digitsOutOfBounds (s : State) : Bool :=
  s.ops.digits.toNat < Config.digitsMin || Config.digitsMax < s.ops.digits.toNat

/-- KEYLEN > 128: BAD_KEYLEN (R270). -/
def keyLenBad (s : State) : Bool := Config.keyBufBytes < s.ops.keyLen.toNat

/-- CFG as a word: DIGITS in [3:0], ALG in [5:4], the rest 0 (R38). -/
def cfgWord (s : State) : Word := 0#26 ++ s.ops.alg ++ s.ops.digits

/-- The operand registers after an idle write of v to register r: the register's non-reserved bits
from v, nothing else (20_memory.md R82); a register that is no operand register changes nothing. -/
def writeOperand (r : Reg) (v : Word) (o : Operands) : Operands :=
  match r with
  | .cfg => { o with digits := v.extractLsb' 0 4, alg := v.extractLsb' 4 2 }
  | .step => { o with timeStep := v }
  | .keyLen => { o with keyLen := v.extractLsb' 0 8 }
  | .counterHi => { o with counterHi := v }
  | .counterLo => { o with counterLo := v }
  | .timeHi => { o with timeHi := v }
  | .timeLo => { o with timeLo := v }
  | .key k => { o with key := setWordAt o.key k.val v }
  | .id | .param | .ctrl | .cmd | .status | .msgHi | .msgLo | .dlen | .trunc | .code | .codeStr0
  | .codeStr1 | .codeLen | .digest _ => o

end Sys2Proof.Machine
end

