-- ==== Sys2Proof/Machine/Otp.lean ====
section
/-! DEFINITION. The pure units around the hash: dynamic truncation (43_truncator.md R220), modular
reduction and formatting (44_code_formatter.md R230) and the time-to-counter derivation (46_totp.md
R250). -/

namespace Sys2Proof.Machine

/-- The offset of dynamic truncation: the low nibble of the final digest byte (R220). -/
def truncOffset (d : List Byte) : Nat := (d.getD (d.length - 1) 0#8 &&& 0x0F#8).toNat

/-- `DT(d)`: the four bytes at the offset as a big-endian word, without its top bit (R220). A digest has 20
or 32 bytes (43_truncator.md R222), so no byte is past its end (DESIGN CHOICE, notes/assumptions/10.md). -/
def dynamicTruncate (d : List Byte) : BitVec 31 :=
  let o := truncOffset d
  (be32 (d.getD o 0#8) (d.getD (o + 1) 0#8) (d.getD (o + 2) 0#8) (d.getD (o + 3) 0#8)).extractLsb' 0 31

/-- `c = v mod 10^d` (R230). -/
def codeValue (v : BitVec 31) (d : Nat) : Nat := v.toNat % 10 ^ d

/-- The ASCII character of decimal digit i of c written with d digits, the most significant first:
`0x30 + ((c div 10^(d-1-i)) mod 10)` (R230). -/
def codeChar (c d i : Nat) : Byte := 0x30#8 + BitVec.ofNat 8 (c / 10 ^ (d - 1 - i) % 10)

/-- The d characters of the code string (R230). -/
def codeString (c d : Nat) : List Byte := (List.range d).map (codeChar c d)

/-- `TimeCounter(T, S)`: T is read as two's complement, a negative one is rejected first, then a zero
step; else the exact quotient (R250). -/
def timeCounter (t : DWord) (s : Word) : Except ErrorCode DWord :=
  if t.msb then .error .negTimestamp
  else if s = 0#32 then .error .badStep
  else .ok (BitVec.ofNat 64 (t.toNat / s.toNat))

end Sys2Proof.Machine
end

