-- ==== Sys2Proof/Machine/Ops.lean ====
section
/-! DEFINITION. The shared operations of the sequencer: accept, complete and raise an error
(40_command_execution.md R140, R143, 60_exceptions.md R273), the writes of each unit's result with its
valid flag, the fused pipeline, ZEROIZE's clearing and the reset input. -/

namespace Sys2Proof.Machine

/-! ## Accept, complete, raise an error, reset -/

/-- `Accept(v)`: the word is the command in progress and the core is busy; nothing else changes
(R140). -/
def accept (v : Word) (s : State) : State := { s with cmd := v, busy := true }

/-- The completion bookkeeping for the code e, the last part of the completion step (R143). -/
def finish (e : ErrorCode) (s : State) : State :=
  { s with status := recordCompletion s.cmd e s.status, busy := false }

/-- `complete()`: the command ends with code 0 (R143). -/
def complete (s : State) : Outcome := .next (finish .none s)

/-- `raise Error(code)`: the core's one form of exception. The command ends, the code is reported in
STATUS and no register, buffer or valid flag changes; nothing is saved and there is no handler to
enter or return from (60_exceptions.md R273, 40_command_execution.md R145). -/
def raiseError (e : ErrorCode) (s : State) : Outcome := .next (finish e s)

/-- What an illegal word in progress executes: `raise Error(ILLEGAL_CMD)` (R144, 30_encoding.md R114,
R115). -/
def illegalCommand (s : State) : Outcome := raiseError .illegalCmd s

/-- Every register, buffer, flag and the sequencer at its reset value and `rst` at the given level;
the host and the schedule are no part of the core (70_reset_and_hazards.md R300). -/
def resetCore (level : Bool) (s : State) : State :=
  { State.reset with rst := level, host := s.host, turns := s.turns }

/-! ## Result writes, each with its valid flag (R37) -/

/-- MSG <- be64(c), MSG_VALID <- 1 (41_counter_codec.md R161). -/
def writeMessage (c : DWord) (s : State) : State :=
  { s with
    res := { s.res with msg := fillBuffer 8 (be64 c) }
    status := { s.status with msgValid := true } }

/-- DIG <- d with 0x00 after it, DLEN <- the algorithm's digest length, DIGEST_VALID <- 1
(42_hmac_engine.md R200). -/
def writeDigest (a : Alg) (d : List Byte) (s : State) : State :=
  { s with
    res := { s.res with dig := fillBuffer 32 d, digestLen := BitVec.ofNat 8 (digestBytes a) }
    status := { s.status with digestValid := true } }

/-- TRUNC <- v, TRUNC_VALID <- 1 (43_truncator.md R221). -/
def writeTrunc (v : BitVec 31) (s : State) : State :=
  { s with
    res := { s.res with trunc := v }
    status := { s.status with truncValid := true } }

/-- CODE, STR and CODE_LEN <- `Format(v, d)`, CODE_VALID <- 1 (44_code_formatter.md R230, R231). -/
def writeCode (v : BitVec 31) (d : BitVec 4) (s : State) : State :=
  { s with
    res := { s.res with
      code := BitVec.ofNat 32 (codeValue v d.toNat)
      str := fillBuffer 8 (codeString (codeValue v d.toNat) d.toNat)
      codeLen := d }
    status := { s.status with codeValid := true } }

/-- The writes of a fused command, once its checks have passed: encode the counter, hash, truncate,
format, with the DIGITS in CFG (45_hotp.md R241, 46_totp.md R252). -/
def runPipeline (a : Alg) (c : DWord) (s : State) : State :=
  let dig := hmac a (secretOf s) (be64 c)
  let v := dynamicTruncate dig
  writeCode v s.ops.digits (writeTrunc v (writeDigest a dig (writeMessage c s)))

/-- ZEROIZE's writes: the key, its length, every result register and buffer, the four valid flags
(40_command_execution.md R151). -/
def zeroizeData (s : State) : State :=
  { s with
    ops := { s.ops with key := Vector.replicate 128 0#8, keyLen := 0#8 }
    res := Results.reset
    status := { s.status with
      msgValid := false
      digestValid := false
      truncValid := false
      codeValid := false } }

end Sys2Proof.Machine
end

