-- ==== Sys2Proof/Machine/Fused.lean ====
section
/-! DEFINITION. The fused commands, which run the whole pipeline in one completion: HOTP and TOTP. -/

namespace Sys2Proof.Machine

/-- HOTP: a counter-based code, always with HMAC-SHA1 (45_hotp.md R240, R241). -/
def execHotp (s : State) : Outcome :=
  if digitsOutOfBounds s then raiseError .outOfBounds s
  else if keyLenBad s then raiseError .badKeyLen s
  else complete (runPipeline .sha1 (counterOf s) s)

/-- TOTP: a time-based code with the algorithm of CFG.ALG (46_totp.md R252). -/
def execTotp (s : State) : Outcome :=
  if digitsOutOfBounds s then raiseError .outOfBounds s
  else match timeCounter (timestampOf s) s.ops.timeStep with
    | .error e => raiseError e s
    | .ok c =>
      match selectAlg s.ops.alg with
      | none => raiseError .unsupportedAlgorithm s
      | some a =>
        if keyLenBad s then raiseError .badKeyLen s
        else complete (runPipeline a c s)

end Sys2Proof.Machine
end

