-- ==== Sys2Proof/Machine/Staged.lean ====
section
/-! DEFINITION. The staged commands, one for each unit: ENCODE, TENCODE, HMAC, TRUNC, FORMAT. Each makes
its checks in the order of 60_exceptions.md R276 and only then writes. -/

namespace Sys2Proof.Machine

/-- ENCODE: the HOTP counter into MSG (41_counter_codec.md R161). -/
def execEncode (s : State) : Outcome := complete (writeMessage (counterOf s) s)

/-- TENCODE: the TOTP counter, derived from the timestamp, into MSG (46_totp.md R251). -/
def execTencode (s : State) : Outcome :=
  match timeCounter (timestampOf s) s.ops.timeStep with
  | .error e => raiseError e s
  | .ok c => complete (writeMessage c s)

/-- HMAC: the keyed hash of MSG into DIG (42_hmac_engine.md R200). -/
def execHmac (s : State) : Outcome :=
  match selectAlg s.ops.alg with
  | none => raiseError .unsupportedAlgorithm s
  | some a =>
    if keyLenBad s then raiseError .badKeyLen s
    else if !s.status.msgValid then raiseError .sequence s
    else complete (writeDigest a (hmac a (secretOf s) (messageOf s)) s)

/-- TRUNC: the dynamic truncation of DIG (43_truncator.md R221). -/
def execTrunc (s : State) : Outcome :=
  if !s.status.digestValid then raiseError .sequence s
  else complete (writeTrunc (dynamicTruncate (digestOf s)) s)

/-- FORMAT: TRUNC reduced and rendered with DIGITS digits (44_code_formatter.md R231). -/
def execFormat (s : State) : Outcome :=
  if digitsOutOfBounds s then raiseError .outOfBounds s
  else if !s.status.truncValid then raiseError .sequence s
  else complete (writeCode s.res.trunc s.ops.digits s)

end Sys2Proof.Machine
end

