-- ==== Sys2Proof/Machine/System.lean ====
section
/-! DEFINITION. The commands of 40_command_execution.md: NOP and ZEROIZE. A meaning is a whole
completion step: `Execute` and the bookkeeping of R143. -/

namespace Sys2Proof.Machine

/-- NOP (R150). -/
def execNop (s : State) : Outcome := complete s

/-- ZEROIZE (R151). -/
def execZeroize (s : State) : Outcome := complete (zeroizeData s)

end Sys2Proof.Machine
end

