-- ==== Sys2Proof/Machine/Dispatch.lean ====
section
/-! DEFINITION. The dispatch of 40_command_execution.md R144: one arm per command. -/

namespace Sys2Proof.Machine

/-- The completion step of a command (R141, R144). -/
def exec (i : Instr) (s : State) : Host.Outcome State Fault Refusal :=
  match i with
  | .nop => Sys2Proof.Machine.execNop s
  | .encode => Sys2Proof.Machine.execEncode s
  | .tencode => Sys2Proof.Machine.execTencode s
  | .hmac => Sys2Proof.Machine.execHmac s
  | .trunc => Sys2Proof.Machine.execTrunc s
  | .format => Sys2Proof.Machine.execFormat s
  | .hotp => Sys2Proof.Machine.execHotp s
  | .totp => Sys2Proof.Machine.execTotp s
  | .zeroize => Sys2Proof.Machine.execZeroize s

end Sys2Proof.Machine
end

