-- ==== Sys2Proof/Machine/Bus.lean ====
section
/-! DEFINITION. The register window as the host sees it (20_memory.md): what each register reads, what
a write does, which accesses are admitted, and the same by bus address (00_scope.md R14). -/

namespace Sys2Proof.Machine

/-- The current value of a register as 10_state.md R32-R50 give it: 0 for CMD and KEY0-KEY31, 0 in
every reserved bit (20_memory.md R85). -/
def readReg (r : Reg) (s : State) : Word :=
  match r with
  | .id => Config.idValue
  | .param => Config.paramValue
  | .ctrl => 0#31 ++ flagBit s.irqEn
  | .cmd => 0#32
  | .status => statusWord s
  | .cfg => cfgWord s
  | .step => s.ops.timeStep
  | .keyLen => 0#24 ++ s.ops.keyLen
  | .counterHi => s.ops.counterHi
  | .counterLo => s.ops.counterLo
  | .timeHi => s.ops.timeHi
  | .timeLo => s.ops.timeLo
  | .msgHi => wordAt s.res.msg 0
  | .msgLo => wordAt s.res.msg 1
  | .dlen => 0#24 ++ s.res.digestLen
  | .trunc => 0#1 ++ s.res.trunc
  | .code => s.res.code
  | .codeStr0 => wordAt s.res.str 0
  | .codeStr1 => wordAt s.res.str 1
  | .codeLen => 0#28 ++ s.res.codeLen
  | .digest k => wordAt s.res.dig k.val
  | .key _ => 0#32

/-- A write to CMD or an operand register while busy: STATUS.WIGN <- 1, nothing else (R83). -/
def ignoreWrite (s : State) : State := { s with status := { s.status with wign := true } }

/-- An admitted write of v to a register, the case list of R82. -/
def writeReg (r : Reg) (v : Word) (s : State) : State :=
  match r with
  | .ctrl => { s with irqEn := v.getLsbD 0 }
  | .status => { s with status := clearEvents v s.status }
  | .id | .param | .msgHi | .msgLo | .dlen | .trunc | .code | .codeStr0 | .codeStr1 | .codeLen
  | .digest _ => s
  | .cmd => if s.busy then ignoreWrite s else accept v s
  | .cfg | .step | .keyLen | .counterHi | .counterLo | .timeHi | .timeLo | .key _ =>
    if s.busy then ignoreWrite s else { s with ops := writeOperand r v s.ops }

/-- `BusRead(off)`: the register's value if the access is admitted and `rst` is released; it changes no
state (R84, R85, 70_reset_and_hazards.md R303). -/
def busRead (off size : Nat) (s : State) : Except Fault Word :=
  if s.rst then .error .accessInReset
  else match admitted off size with
    | none => .error .busError
    | some r => .ok (readReg r s)

/-- `BusWrite(off, v)`: the register's write if the access is admitted and `rst` is released (R82, R84,
R303). -/
def busWrite (off size : Nat) (v : Word) (s : State) : Except Fault State :=
  if s.rst then .error .accessInReset
  else match admitted off size with
    | none => .error .busError
    | some r => .ok (writeReg r v s)

/-- `MemRead(addr, 4) = BusRead(addr - OTP_BASE)` (00_scope.md R14). An address below the window is not
this core's. -/
def memRead (addr : Nat) (s : State) : Except Fault Word :=
  if addr < Config.otpBase then .error .busError
  else busRead (addr - Config.otpBase) Config.regBits s

/-- `MemWrite(addr, 4, v) = BusWrite(addr - OTP_BASE, v)` (00_scope.md R14). -/
def memWrite (addr : Nat) (v : Word) (s : State) : Except Fault State :=
  if addr < Config.otpBase then .error .busError
  else busWrite (addr - Config.otpBase) Config.regBits v s

end Sys2Proof.Machine
end

