-- ==== Sys2Proof/Machine/HostProgram.lean ====
section
/-! DEFINITION. The host's side of the window (30_encoding.md R123-R125): its temporaries, one statement
of its program, and the assembler that expands pseudo-statements and resolves labels. -/

namespace Sys2Proof.Machine

/-! ## Temporaries -/

/-- The canonical form: names strictly rising, no entry that holds 0. -/
def tempsWf (ts : List (Nat × Word)) : Bool :=
  decide (ts.Pairwise fun p q => p.1 < q.1) && ts.all fun p => p.2 != 0#32

/-- The value of a temporary; an unlisted one reads 0. -/
def tempGet : List (Nat × Word) → Nat → Word
  | [], _ => 0#32
  | (n, v) :: rest, t => if t = n then v else if t < n then 0#32 else tempGet rest t

/-- A temporary set to a value, in the canonical form: setting it to 0 removes its entry. -/
def tempSet : List (Nat × Word) → Nat → Word → List (Nat × Word)
  | [], t, v => if v = 0#32 then [] else [(t, v)]
  | (n, w) :: rest, t, v =>
    if t < n then (if v = 0#32 then (n, w) :: rest else (t, v) :: (n, w) :: rest)
    else if t = n then (if v = 0#32 then rest else (n, v) :: rest)
    else (n, w) :: tempSet rest t v

/-! ## One statement of the host -/

/-- The host goes to the statement at an index. -/
def hostGoto (pc : Nat) (s : State) : State := { s with host := { s.host with pc := pc } }

/-- The host goes to its next statement. -/
def hostAdvance (s : State) : State := hostGoto (s.host.pc + 1) s

/-- `rd REG -> t`: the value read goes to temporary t; the core does not change (R123, R56). -/
def hostReceive (t : Nat) (v : Word) (s : State) : State :=
  hostAdvance { s with host := { s.host with temps := tempSet s.host.temps t v } }

/-- One statement of the host program (R123). An access the core does not admit is a fault of the host
program (20_memory.md R84, 70_reset_and_hazards.md R303). -/
def hostStatement (st : Stmt) (s : State) : Outcome :=
  match st with
  | .wr off size v =>
    match busWrite off size v s with
    | .error f => .fault f
    | .ok s' => .next (hostAdvance s')
  | .rd off size t =>
    match busRead off size s with
    | .error f => .fault f
    | .ok v => .next (hostReceive t v s)
  | .bnz t mask target =>
    if tempGet s.host.temps t &&& mask = 0#32 then .next (hostAdvance s) else .next (hostGoto target s)
  | .halt => .next { s with host := { s.host with halted := true } }

/-- The host's turn: its next statement, or nothing once it has halted or has no statement left (DESIGN
CHOICE, notes/assumptions/7.md). -/
def hostTurn (s : State) : Outcome :=
  if s.host.halted then .next s
  else match s.host.prog[s.host.pc]? with
    | none => .next s
    | some st => hostStatement st s

/-! ## Assembler -/

/-- The temporary that `wait` reads STATUS into, the `t` of R124 (DESIGN CHOICE, notes/assumptions/6.md). -/
def waitTemp : Nat := 0

/-- `wr REG, v` (R123). -/
def wrReg (r : Reg) (v : Word) : Stmt := .wr r.offset Config.regBits v

/-- `rd REG -> t` (R123). -/
def rdReg (r : Reg) (t : Nat) : Stmt := .rd r.offset Config.regBits t

/-- The KEY writes of `key "s"` from register k on, the bytes past the end taken as 0x00 (R124). -/
def keyWrites (k : Nat) : List Byte → List Stmt
  | [] => []
  | [b0] => [.wr (0x100 + 4 * k) Config.regBits (be32 b0 0 0 0)]
  | [b0, b1] => [.wr (0x100 + 4 * k) Config.regBits (be32 b0 b1 0 0)]
  | [b0, b1, b2] => [.wr (0x100 + 4 * k) Config.regBits (be32 b0 b1 b2 0)]
  | b0 :: b1 :: b2 :: b3 :: rest =>
    .wr (0x100 + 4 * k) Config.regBits (be32 b0 b1 b2 b3) :: keyWrites (k + 1) rest

/-- How many statements a line stands for (R123, R124). -/
def lineSize : Line → Nat
  | .label _ => 0
  | .wr _ _ | .rd _ _ | .bnz _ _ _ | .halt | .cmd _ | .clr | .cfg _ _ => 1
  | .wait | .counter _ | .time _ => 2
  | .key secret => (secret.length + 3) / 4 + 1

/-- The statement index of each label, the program starting at index pos. -/
def labelTable : Nat → List Line → List (Nat × Nat)
  | _, [] => []
  | pos, .label l :: rest => (l, pos) :: labelTable pos rest
  | pos, line :: rest => labelTable (pos + lineSize line) rest

/-- The statements of one line at index pos (R123, R124); none for a branch to an unknown label. -/
def lineStmts (labels : List (Nat × Nat)) (pos : Nat) : Line → Option (List Stmt)
  | .label _ => some []
  | .wr off v => some [.wr off Config.regBits v]
  | .rd off t => some [.rd off Config.regBits t]
  | .bnz t mask l => (labels.lookup l).map fun target => [.bnz t mask target]
  | .halt => some [.halt]
  | .cmd i => some [wrReg .cmd (encode i)]
  | .wait => some [rdReg .status waitTemp, .bnz waitTemp 0x1 pos]
  | .clr => some [wrReg .status 0x0000000E]
  | .key secret =>
    some (keyWrites 0 secret ++ [wrReg .keyLen (BitVec.ofNat 32 secret.length)])
  | .counter c => some [wrReg .counterHi (c.extractLsb' 32 32), wrReg .counterLo (c.extractLsb' 0 32)]
  | .time t => some [wrReg .timeHi (t.extractLsb' 32 32), wrReg .timeLo (t.extractLsb' 0 32)]
  | .cfg d a => some [wrReg .cfg ((a <<< 4) ||| d)]

/-- The statements of the lines from index pos on. -/
def assembleFrom (labels : List (Nat × Nat)) : Nat → List Line → Option (List Stmt)
  | _, [] => some []
  | pos, line :: rest =>
    match lineStmts labels pos line, assembleFrom labels (pos + lineSize line) rest with
    | some a, some b => some (a ++ b)
    | _, _ => none

/-- A source program as statements; none if it is ill formed (R123, R124). -/
def assemble (ls : List Line) : Option (List Stmt) :=
  if programWf ls then assembleFrom (labelTable 0 ls) 0 ls else none

/-- The bus transaction of a statement, if it makes one (R123). -/
def transaction : Stmt → Option Transaction
  | .wr off _ v => some (.w off v)
  | .rd off _ _ => some (.r off)
  | .bnz _ _ _ => none
  | .halt => none

/-- A program's encoding: the list of its bus transactions (R125), each statement's once, in program order.
R125 leaves open whether the list is this or that of a run, in which a loop repeats its read (DESIGN CHOICE,
notes/assumptions/13.md). -/
def encodeProgram (p : List Stmt) : List Transaction := p.filterMap transaction

end Sys2Proof.Machine
end

