-- ==== Sys2Proof/Machine/Step.lean ====
section
/-! DEFINITION. One step of the machine: the turn the schedule names (40_command_execution.md R141,
20_memory.md R89). A completion, a host access and an edge of `rst` never share a step. -/

namespace Sys2Proof.Machine

/-- The completion of the command in progress: decode s.cmd and run it, an illegal word included
(R144). -/
def completion (s : State) : Outcome :=
  match decode s.cmd with
  | some i => exec i s
  | none => illegalCommand s

/-- The sequencer's turn: the completion when it is busy and out of reset, else no step of it is
enabled and nothing changes (R141, 70_reset_and_hazards.md R300). -/
def coreTurn (s : State) : Outcome :=
  if s.busy && !s.rst then completion s else .next s

/-- An edge of `rst`: its assertion resets the core and abandons a command in progress, its release
leaves the core at its reset values; a release of a released `rst` is no edge (R300; DEDUCED,
notes/assumptions/8.md). -/
def resetTurn (level : Bool) (s : State) : Outcome :=
  if level || s.rst then .next (resetCore level s) else .next s

/-- One turn, whoever's it is. -/
def takeTurn (t : Turn) (s : State) : Outcome :=
  match t with
  | .host => hostTurn s
  | .core => coreTurn s
  | .assertRst => resetTurn true s
  | .releaseRst => resetTurn false s

/-- Whose turn it is when the schedule is at its end: the sequencer's if a command is in progress, else
the host's, so that every accepted command completes (R141; DESIGN CHOICE, notes/assumptions/2.md). -/
def defaultTurn (s : State) : Turn := if s.busy && !s.rst then .core else .host

/-- One step: the next turn of the schedule. -/
def step (s : State) : Host.Outcome State Fault Refusal :=
  match s.turns with
  | [] => takeTurn (defaultTurn s) s
  | t :: rest => takeTurn t { s with turns := rest }

/-- The state in which the next step runs a command word: `rst` released, the word accepted, the
schedule empty. It stands for the host's write to CMD (R140; notes/assumptions/3.md). -/
def State.withFetchWord (s : State) (nbits w : Nat) : State :=
  { s with cmd := BitVec.ofNat 32 (w % 2 ^ nbits), busy := true, rst := false, turns := [] }

end Sys2Proof.Machine
end

