-- ==== Sys2Proof/Safety.lean ====
section
/-! DEFINITION. The terms claims use: the invariant of the core's data, a command issued from idle,
the order of the errors, and equality of states but for what a rule sets apart. -/

namespace Sys2Proof.Machine

/-- The decimal value of a string of ASCII digits (44_code_formatter.md R232). -/
def decimalNat (bs : List Byte) : Nat := bs.foldl (fun n b => n * 10 + (b.toNat - 0x30)) 0

/-- What a displayed code satisfies (R232): DIGITS was legal, every character is a decimal digit, the
bytes after the code are 0x00, and the string spells CODE. -/
structure CodeWellFormed (r : Results) : Prop where
  length : 6 ≤ r.codeLen.toNat ∧ r.codeLen.toNat ≤ 8
  bound : r.code.toNat < 10 ^ r.codeLen.toNat
  digits : ∀ i, i < r.codeLen.toNat → 0x30 ≤ (byteAt r.str i).toNat ∧ (byteAt r.str i).toNat ≤ 0x39
  fill : ∀ i, r.codeLen.toNat ≤ i → byteAt r.str i = 0#8
  value : decimalNat (r.str.toList.take r.codeLen.toNat) = r.code.toNat

/-- The core has its reset values (70_reset_and_hazards.md R300, R301), whatever s.cmd holds, which R301 leaves
unspecified. -/
def coreAtReset (s : State) : Prop :=
  s.busy = false ∧ s.irqEn = State.reset.irqEn ∧ s.status = State.reset.status ∧
    s.ops = State.reset.ops ∧ s.res = State.reset.res

/-- The invariant of the core: what every state a run reaches satisfies. A clear valid flag means the
buffer reads as after reset (D33), a set one means it holds a result of its unit's form, and the flags
are set in pipeline order; under reset the core is at its reset values (R300), s.cmd apart, which R301
leaves unspecified. That the host's temporaries are in canonical form is the model's own
(notes/assumptions/6.md). -/
structure Inv (s : State) : Prop where
  codeNeedsTrunc : s.status.codeValid = true → s.status.truncValid = true
  truncNeedsDigest : s.status.truncValid = true → s.status.digestValid = true
  digestNeedsMessage : s.status.digestValid = true → s.status.msgValid = true
  messageClear : s.status.msgValid = false → s.res.msg = Results.reset.msg
  digestClear : s.status.digestValid = false →
    s.res.digestLen = 0#8 ∧ s.res.dig = Results.reset.dig
  digestForm : s.status.digestValid = true →
    s.res.digestLen = 32#8 ∨ (s.res.digestLen = 20#8 ∧ ∀ i, 20 ≤ i → byteAt s.res.dig i = 0#8)
  truncClear : s.status.truncValid = false → s.res.trunc = 0#31
  codeClear : s.status.codeValid = false →
    s.res.code = 0#32 ∧ s.res.str = Results.reset.str ∧ s.res.codeLen = 0#4
  codeForm : s.status.codeValid = true → CodeWellFormed s.res
  underReset : s.rst = true → coreAtReset s
  temps : tempsWf s.host.temps = true

/-- A command issued while idle and run to its completion: the host's write of its word to CMD is
accepted, and the next step of the core is the completion (40_command_execution.md R140, R141). -/
def issue (i : Instr) (s : State) : Outcome := completion (accept (encode i) s)

/-- The state a command that raises an error leaves: STATUS reports it, nothing else changes
(60_exceptions.md R273). -/
def afterError (e : ErrorCode) (s : State) : State :=
  { s with
    busy := false
    status := { s.status with
      done := true
      err := true
      errCode := e
      lastOp := s.cmd.extractLsb' 0 4 } }

/-- The state a successful command leaves that writes the results r and, on top of the bookkeeping
(40_command_execution.md R143), the valid flags of st; all else unchanged. -/
def afterSuccess (st : Status) (r : Results) (s : State) : State :=
  { s with
    res := r
    busy := false
    status := { st with
      done := true
      errCode := .none
      lastOp := s.cmd.extractLsb' 0 4 } }

/-- The order in which one of several errors is reported (60_exceptions.md R276). -/
def errorPriority : List ErrorCode :=
  [.illegalCmd, .outOfBounds, .negTimestamp, .badStep, .unsupportedAlgorithm, .badKeyLen, .sequence]

/-- The checks each command makes, as R277 lists them. -/
def checksOf : Instr → List ErrorCode
  | .nop => []
  | .encode => []
  | .tencode => [.negTimestamp, .badStep]
  | .hmac => [.unsupportedAlgorithm, .badKeyLen, .sequence]
  | .trunc => [.sequence]
  | .format => [.outOfBounds, .sequence]
  | .hotp => [.outOfBounds, .badKeyLen]
  | .totp => [.outOfBounds, .negTimestamp, .badStep, .unsupportedAlgorithm, .badKeyLen]
  | .zeroize => []

/-- Whether the cause R270 gives an error stands when a legal command i completes in s. -/
def errorApplies (i : Instr) (s : State) : ErrorCode → Bool
  | .none => false
  | .illegalCmd => false
  | .outOfBounds => !(s.ops.digits == 6#4 || s.ops.digits == 7#4 || s.ops.digits == 8#4)
  | .unsupportedAlgorithm => !(s.ops.alg == 0#2 || s.ops.alg == 1#2)
  | .badKeyLen => 128 < s.ops.keyLen.toNat
  | .badStep => s.ops.timeStep == 0#32
  | .negTimestamp => s.ops.timeHi.getLsbD 31
  | .sequence =>
    match i with
    | .hmac => !s.status.msgValid
    | .trunc => !s.status.digestValid
    | .format => !s.status.truncValid
    | .nop | .encode | .tencode | .hotp | .totp | .zeroize => false

/-- The code a legal command reports: its first applicable check, NONE if none applies (R276, R277). -/
def reportedError (i : Instr) (s : State) : ErrorCode :=
  ((checksOf i).find? (errorApplies i s)).getD .none

/-- The registers whose write is ignored while busy: CMD and the operand registers (20_memory.md R83). -/
def isOperandOrCmd : Reg → Bool
  | .cmd | .cfg | .step | .keyLen | .counterHi | .counterLo | .timeHi | .timeLo | .key _ => true
  | .id | .param | .ctrl | .status | .msgHi | .msgLo | .dlen | .trunc | .code | .codeStr0 | .codeStr1
  | .codeLen | .digest _ => false

/-- Two states whose core is the same: they may differ in the host and the schedule only. -/
def sameCore (s t : State) : Prop := t = { s with host := t.host, turns := t.turns }

/-- A state with STATUS.LASTOP and the word of the last command put out of sight: R242 and R253 compare
states "STATUS.LASTOP apart", and s.cmd is not read while idle (R54). -/
def forgetLastOp (s : State) : State := { s with cmd := 0#32, status := { s.status with lastOp := 0#4 } }

end Sys2Proof.Machine
end

