-- ==== Sys2Proof/Certificates/Slice0/Obligations.lean ====
section
/-! DEFINITION. The statements about the model, each from a rule of the spec. `exec i s` is the completion
step of command i, bookkeeping included; a statement that gives its next state as `afterSuccess` or
`afterError` gives every field, so it is the command's frame as well as its result. -/

open Sys2Proof Sys2Proof.Machine

/-! ## Command words -/

/-- R113, R116: the decoder reads every command back from its word and reads a command from no other word;
it names why each other word is illegal (R114, R115), and it agrees with the static check of a word. -/
def Obligations.DecodeEncodeAgree : Prop :=
  (∀ i : Instr, i.wellFormed = true → decode (encode i) = some i) ∧
  (∀ (w : Word) (i : Instr), decode w = some i → encode i = w) ∧
  (∀ w : Word, (decodeWord w = .reservedBits ↔ w.extractLsb' 4 28 ≠ 0#28) ∧
    (decodeWord w = .reservedOpcode ↔ w.extractLsb' 4 28 = 0#28 ∧ 9 ≤ (w.extractLsb' 0 4).toNat) ∧
    (decode w).isSome = commandWordWf w)

/-- R113: the opcode map, each word written out; no other 32-bit word is a command. -/
def Obligations.OpcodeMapWords : Prop :=
  (decode 0x00000000#32 = some .nop ∧ decode 0x00000001#32 = some .encode ∧
    decode 0x00000002#32 = some .tencode ∧ decode 0x00000003#32 = some .hmac ∧
    decode 0x00000004#32 = some .trunc ∧ decode 0x00000005#32 = some .format ∧
    decode 0x00000006#32 = some .hotp ∧ decode 0x00000007#32 = some .totp ∧
    decode 0x00000008#32 = some .zeroize) ∧
  (∀ w : Word, 9 ≤ w.toNat → decode w = none)

/-- R114, R115: an illegal word is accepted like any other and completes with ILLEGAL_CMD, LASTOP its bits
[3:0], and no other effect. -/
def Obligations.IllegalWordCompletesWithIllegalCmd : Prop :=
  ∀ (w : Word) (s : State),
    (w.extractLsb' 4 28 ≠ 0#28 ∨ 9 ≤ (w.extractLsb' 0 4).toNat) → s.busy = false → s.rst = false →
    busWrite 0x00C 32 w s = .ok { s with cmd := w, busy := true } ∧
    ∀ rest, s.turns = .core :: rest →
      step { s with cmd := w, busy := true } =
        .next (afterError .illegalCmd { s with cmd := w, busy := true, turns := rest })

/-- R141, R144: a completion runs the command its word decodes to, whether the schedule names the
sequencer or is at its end (the default turn is the model's choice, notes/assumptions/2.md); the word
placed by `withFetchWord` (notes/assumptions/3.md) is the one that runs. -/
def Obligations.StepRunsTheDecodedCommand : Prop :=
  (∀ (s : State) (i : Instr), decode s.cmd = some i → s.busy = true → s.rst = false →
    (s.turns = [] → step s = exec i s) ∧
    (∀ rest, s.turns = .core :: rest → step s = exec i { s with turns := rest })) ∧
  (∀ (s : State) (w : Nat) (i : Instr), decodeTableWord 32 w = some i →
    step (s.withFetchWord 32 w) = exec i (s.withFetchWord 32 w))

/-! ## The commands -/

/-- R150: NOP completes from every state with nothing but the bookkeeping, ERR and WIGN kept; the
interrupt follows IRQ_EN. -/
def Obligations.NopOnlyCompletes : Prop :=
  encode .nop = 0x00000000#32 ∧
  ∀ s : State, exec .nop s = .next (afterSuccess s.status s.res s) ∧
    irq (afterSuccess s.status s.res s) = s.irqEn

/-- R151: ZEROIZE completes from every state: KEY, KEYLEN, every result and the four valid flags are
cleared, nothing else but the bookkeeping. -/
def Obligations.ZeroizeClearsSecretAndResults : Prop :=
  encode .zeroize = 0x00000008#32 ∧
  ∀ s : State, exec .zeroize s = .next (afterSuccess
    { s.status with msgValid := false, digestValid := false, truncValid := false, codeValid := false }
    { msg := Vector.replicate 8 0#8, dig := Vector.replicate 32 0#8, digestLen := 0#8, trunc := 0#31,
      code := 0#32, str := Vector.replicate 8 0#8, codeLen := 0#4 }
    { s with ops := { s.ops with key := Vector.replicate 128 0#8, keyLen := 0#8 } })

/-- R160: byte i of be64(c) is c[63-8i : 56-8i]. -/
def Obligations.CounterBytesAreBigEndian : Prop :=
  ∀ c : DWord, (be64 c).length = 8 ∧
    ∀ i, i < 8 → (be64 c)[i]? = some (c.extractLsb' (56 - 8 * i) 8)

/-- R161: ENCODE completes from every state with MSG = be64(COUNTER) and MSG_VALID, nothing else but the
bookkeeping. -/
def Obligations.EncodeWritesMessage : Prop :=
  encode .encode = 0x00000001#32 ∧
  ∀ s : State, exec .encode s = .next (afterSuccess
    { s.status with msgValid := true }
    { s.res with msg := fillBuffer 8 (be64 (s.ops.counterHi ++ s.ops.counterLo)) } s)

/-- R162, which the spec derives from R160 and R43: the sum of b[i] * 2^(8*(7-i)) gives c back, and after
ENCODE the MSG registers read the counter. -/
def Obligations.EncodedCounterReadsBack : Prop :=
  (∀ c : DWord,
    ((List.range 8).map fun i => ((be64 c).getD i 0#8).toNat * 2 ^ (8 * (7 - i))).sum = c.toNat) ∧
  ∀ s : State, ∃ t, exec .encode s = .next t ∧
    (readReg .msgHi t).toNat * 2 ^ 32 + (readReg .msgLo t).toNat =
      s.ops.counterHi.toNat * 2 ^ 32 + s.ops.counterLo.toNat

/-- R250: a negative T is rejected first, then a zero step, else the result is the exact quotient, at most
2^63 - 1. -/
def Obligations.TimeCounterIsExactQuotient : Prop :=
  ∀ (t : DWord) (s : Word),
    (t.toInt < 0 → timeCounter t s = .error .negTimestamp) ∧
    (0 ≤ t.toInt → s.toNat = 0 → timeCounter t s = .error .badStep) ∧
    (0 ≤ t.toInt → s.toNat ≠ 0 → ∃ c, timeCounter t s = .ok c ∧
      (c.toNat : Int) = t.toInt / s.toNat ∧ c.toNat ≤ 2 ^ 63 - 1)

/-- R251: TENCODE with TIME_HI[31] = 0 and STEP nonzero completes with MSG = be64(T div STEP) and
MSG_VALID; NEG_TIMESTAMP, then BAD_STEP, otherwise. -/
def Obligations.TencodeWritesDerivedCounter : Prop :=
  encode .tencode = 0x00000002#32 ∧
  (∀ s : State, s.ops.timeHi.getLsbD 31 = false → s.ops.timeStep ≠ 0#32 →
    exec .tencode s = .next (afterSuccess
      { s.status with msgValid := true }
      { s.res with msg := fillBuffer 8 (be64 (BitVec.ofNat 64
        ((s.ops.timeHi.toNat * 2 ^ 32 + s.ops.timeLo.toNat) / s.ops.timeStep.toNat))) } s)) ∧
  (∀ s : State, s.ops.timeHi.getLsbD 31 = true →
    exec .tencode s = .next (afterError .negTimestamp s)) ∧
  (∀ s : State, s.ops.timeHi.getLsbD 31 = false → s.ops.timeStep = 0#32 →
    exec .tencode s = .next (afterError .badStep s))

/-- R200: HMAC with ALG 0 or 1, KEYLEN at most 128 and MSG_VALID completes with the digest of the secret
and MSG in DIG, 0x00 after it, DLEN 20 or 32 and DIGEST_VALID; UNSUPPORTED_ALGORITHM, BAD_KEYLEN,
SEQUENCE, in that order, otherwise. -/
def Obligations.HmacWritesDigest : Prop :=
  encode .hmac = 0x00000003#32 ∧
  (∀ s : State, s.ops.alg = 0#2 → s.ops.keyLen.toNat ≤ 128 → s.status.msgValid = true →
    exec .hmac s = .next (afterSuccess
      { s.status with digestValid := true }
      { s.res with
        dig := fillBuffer 32
          (hmac .sha1 (s.ops.key.toList.take s.ops.keyLen.toNat) s.res.msg.toList)
        digestLen := 20#8 } s)) ∧
  (∀ s : State, s.ops.alg = 1#2 → s.ops.keyLen.toNat ≤ 128 → s.status.msgValid = true →
    exec .hmac s = .next (afterSuccess
      { s.status with digestValid := true }
      { s.res with
        dig := fillBuffer 32
          (hmac .sha256 (s.ops.key.toList.take s.ops.keyLen.toNat) s.res.msg.toList)
        digestLen := 32#8 } s)) ∧
  (∀ s : State, s.ops.alg = 2#2 ∨ s.ops.alg = 3#2 →
    exec .hmac s = .next (afterError .unsupportedAlgorithm s)) ∧
  (∀ s : State, s.ops.alg = 0#2 ∨ s.ops.alg = 1#2 → 128 < s.ops.keyLen.toNat →
    exec .hmac s = .next (afterError .badKeyLen s)) ∧
  (∀ s : State, s.ops.alg = 0#2 ∨ s.ops.alg = 1#2 → s.ops.keyLen.toNat ≤ 128 →
    s.status.msgValid = false → exec .hmac s = .next (afterError .sequence s))

/-- R221: TRUNC with DIGEST_VALID completes with TRUNC = DT(DIG[0..DLEN-1]) and TRUNC_VALID; SEQUENCE
otherwise. -/
def Obligations.TruncSelectsWindow : Prop :=
  encode .trunc = 0x00000004#32 ∧
  (∀ s : State, s.status.digestValid = true →
    exec .trunc s = .next (afterSuccess
      { s.status with truncValid := true }
      { s.res with
        trunc := dynamicTruncate (s.res.dig.toList.take s.res.digestLen.toNat) } s)) ∧
  (∀ s : State, s.status.digestValid = false → exec .trunc s = .next (afterError .sequence s))

/-- R220: DT of a 20-byte or 32-byte digest: its window lies inside the digest, and the value is the
window's big-endian number with the top bit of its first byte masked off. -/
def Obligations.DynamicTruncationWindow : Prop :=
  ∀ d : List Byte, d.length = 20 ∨ d.length = 32 →
    ∃ (o : Nat) (last b0 b1 b2 b3 : Byte),
      d[d.length - 1]? = some last ∧ o = (last &&& 0x0F#8).toNat ∧
      d[o]? = some b0 ∧ d[o + 1]? = some b1 ∧ d[o + 2]? = some b2 ∧ d[o + 3]? = some b3 ∧
      (dynamicTruncate d).toNat =
        (b0 &&& 0x7F#8).toNat * 2 ^ 24 + b1.toNat * 2 ^ 16 + b2.toNat * 2 ^ 8 + b3.toNat

/-- R230: c = v mod 10^d; character i is '0' plus the i-th decimal digit from the left; the bytes after
the d-th are 0x00. -/
def Obligations.FormatDigitsAndFill : Prop :=
  ∀ (v : BitVec 31) (d : Nat), d = 6 ∨ d = 7 ∨ d = 8 →
    codeValue v d = v.toNat % 10 ^ d ∧
    (∀ i, i < d → (byteAt (fillBuffer 8 (codeString (codeValue v d) d)) i).toNat =
      0x30 + v.toNat % 10 ^ d / 10 ^ (d - 1 - i) % 10) ∧
    (∀ i, d ≤ i → i < 8 → byteAt (fillBuffer 8 (codeString (codeValue v d) d)) i = 0x00#8)

/-- R231: FORMAT with DIGITS 6, 7 or 8 and TRUNC_VALID completes with CODE, STR and CODE_LEN and
CODE_VALID; OUT_OF_BOUNDS, then SEQUENCE, otherwise. -/
def Obligations.FormatWritesCode : Prop :=
  encode .format = 0x00000005#32 ∧
  (∀ s : State, s.ops.digits = 6#4 ∨ s.ops.digits = 7#4 ∨ s.ops.digits = 8#4 →
    s.status.truncValid = true →
    exec .format s = .next (afterSuccess
      { s.status with codeValid := true }
      { s.res with
        code := BitVec.ofNat 32 (s.res.trunc.toNat % 10 ^ s.ops.digits.toNat)
        str := fillBuffer 8
          (codeString (s.res.trunc.toNat % 10 ^ s.ops.digits.toNat) s.ops.digits.toNat)
        codeLen := s.ops.digits } s)) ∧
  (∀ s : State, s.ops.digits.toNat < 6 ∨ 8 < s.ops.digits.toNat →
    exec .format s = .next (afterError .outOfBounds s)) ∧
  (∀ s : State, s.ops.digits = 6#4 ∨ s.ops.digits = 7#4 ∨ s.ops.digits = 8#4 →
    s.status.truncValid = false → exec .format s = .next (afterError .sequence s))

/-- R241: HOTP with DIGITS 6, 7 or 8 and KEYLEN at most 128 completes with the whole pipeline's results
under HMAC-SHA1 and the four valid flags; OUT_OF_BOUNDS, then BAD_KEYLEN, otherwise. -/
def Obligations.HotpGeneratesCounterCode : Prop :=
  encode .hotp = 0x00000006#32 ∧
  (∀ s : State, s.ops.digits = 6#4 ∨ s.ops.digits = 7#4 ∨ s.ops.digits = 8#4 →
    s.ops.keyLen.toNat ≤ 128 →
    ∃ (m d : List Byte) (v : BitVec 31),
      m = be64 (s.ops.counterHi ++ s.ops.counterLo) ∧
      d = hmac .sha1 (s.ops.key.toList.take s.ops.keyLen.toNat) m ∧
      v = dynamicTruncate d ∧
      exec .hotp s = .next (afterSuccess
        { s.status with msgValid := true, digestValid := true, truncValid := true, codeValid := true }
        { msg := fillBuffer 8 m
          dig := fillBuffer 32 d
          digestLen := 20#8
          trunc := v
          code := BitVec.ofNat 32 (v.toNat % 10 ^ s.ops.digits.toNat)
          str := fillBuffer 8 (codeString (v.toNat % 10 ^ s.ops.digits.toNat) s.ops.digits.toNat)
          codeLen := s.ops.digits } s)) ∧
  (∀ s : State, s.ops.digits.toNat < 6 ∨ 8 < s.ops.digits.toNat →
    exec .hotp s = .next (afterError .outOfBounds s)) ∧
  (∀ s : State, s.ops.digits = 6#4 ∨ s.ops.digits = 7#4 ∨ s.ops.digits = 8#4 →
    128 < s.ops.keyLen.toNat → exec .hotp s = .next (afterError .badKeyLen s))

/-- R240: HOTP does not read CFG.ALG: under another ALG it gives the same state but for that field, and it
never raises UNSUPPORTED_ALGORITHM. -/
def Obligations.HotpIgnoresAlg : Prop :=
  ∀ (s : State) (a : BitVec 2), ∃ t, exec .hotp s = .next t ∧
    exec .hotp { s with ops := { s.ops with alg := a } } =
      .next { t with ops := { t.ops with alg := a } } ∧
    t.status.errCode ≠ .unsupportedAlgorithm

/-- R252: TOTP whose five checks pass completes with the whole pipeline's results for the counter T div
STEP, under SHA-1 for ALG 0 and SHA-256 for ALG 1, and the four valid flags; OUT_OF_BOUNDS,
NEG_TIMESTAMP, BAD_STEP, UNSUPPORTED_ALGORITHM, BAD_KEYLEN, in that order, otherwise. -/
def Obligations.TotpGeneratesTimeCode : Prop :=
  encode .totp = 0x00000007#32 ∧
  (∀ s : State, s.ops.digits = 6#4 ∨ s.ops.digits = 7#4 ∨ s.ops.digits = 8#4 →
    s.ops.timeHi.getLsbD 31 = false → s.ops.timeStep ≠ 0#32 →
    s.ops.alg = 0#2 ∨ s.ops.alg = 1#2 → s.ops.keyLen.toNat ≤ 128 →
    ∃ (a : Alg) (n : BitVec 8) (m d : List Byte) (v : BitVec 31),
      (s.ops.alg = 0#2 → a = .sha1 ∧ n = 20#8) ∧ (s.ops.alg = 1#2 → a = .sha256 ∧ n = 32#8) ∧
      m = be64 (BitVec.ofNat 64
        ((s.ops.timeHi.toNat * 2 ^ 32 + s.ops.timeLo.toNat) / s.ops.timeStep.toNat)) ∧
      d = hmac a (s.ops.key.toList.take s.ops.keyLen.toNat) m ∧
      v = dynamicTruncate d ∧
      exec .totp s = .next (afterSuccess
        { s.status with msgValid := true, digestValid := true, truncValid := true, codeValid := true }
        { msg := fillBuffer 8 m
          dig := fillBuffer 32 d
          digestLen := n
          trunc := v
          code := BitVec.ofNat 32 (v.toNat % 10 ^ s.ops.digits.toNat)
          str := fillBuffer 8 (codeString (v.toNat % 10 ^ s.ops.digits.toNat) s.ops.digits.toNat)
          codeLen := s.ops.digits } s)) ∧
  (∀ s : State, s.ops.digits.toNat < 6 ∨ 8 < s.ops.digits.toNat →
    exec .totp s = .next (afterError .outOfBounds s)) ∧
  (∀ s : State, 6 ≤ s.ops.digits.toNat → s.ops.digits.toNat ≤ 8 → s.ops.timeHi.getLsbD 31 = true →
    exec .totp s = .next (afterError .negTimestamp s)) ∧
  (∀ s : State, 6 ≤ s.ops.digits.toNat → s.ops.digits.toNat ≤ 8 → s.ops.timeHi.getLsbD 31 = false →
    s.ops.timeStep = 0#32 → exec .totp s = .next (afterError .badStep s)) ∧
  (∀ s : State, 6 ≤ s.ops.digits.toNat → s.ops.digits.toNat ≤ 8 → s.ops.timeHi.getLsbD 31 = false →
    s.ops.timeStep ≠ 0#32 → s.ops.alg = 2#2 ∨ s.ops.alg = 3#2 →
    exec .totp s = .next (afterError .unsupportedAlgorithm s)) ∧
  (∀ s : State, 6 ≤ s.ops.digits.toNat → s.ops.digits.toNat ≤ 8 → s.ops.timeHi.getLsbD 31 = false →
    s.ops.timeStep ≠ 0#32 → s.ops.alg = 0#2 ∨ s.ops.alg = 1#2 → 128 < s.ops.keyLen.toNat →
    exec .totp s = .next (afterError .badKeyLen s))

/-- R232, which the spec derives from R230: after a successful FORMAT, HOTP or TOTP the string has DIGITS
characters, all decimal digits, 0x00 after them, it spells CODE, and CODE < 10^DIGITS. -/
def Obligations.CodeStringSpellsCode : Prop :=
  ∀ (i : Instr) (s t : State), i = .format ∨ i = .hotp ∨ i = .totp →
    exec i s = .next t → t.status.errCode = .none →
    CodeWellFormed t.res ∧ t.res.codeLen = s.ops.digits

/-- R242, which the spec derives from R241 and the staged commands' rules: a successful HOTP and the staged
ENCODE, HMAC with ALG 0, TRUNC, FORMAT from the same state, each completing without error, leave the same
state, LASTOP apart. HOTP reads no ALG (R240), so the state may hold any; the staged run has ALG 0. -/
def Obligations.HotpEqualsStagedSequence : Prop :=
  ∀ s t : State, issue .hotp s = .next t → t.status.errCode = .none →
    ∃ s1 s2 s3 s4 : State,
      issue .encode { s with ops := { s.ops with alg := 0#2 } } = .next s1 ∧ s1.status.errCode = .none ∧
      issue .hmac s1 = .next s2 ∧ s2.status.errCode = .none ∧
      issue .trunc s2 = .next s3 ∧ s3.status.errCode = .none ∧
      issue .format s3 = .next s4 ∧ s4.status.errCode = .none ∧
      forgetLastOp s4 = forgetLastOp { t with ops := { t.ops with alg := 0#2 } }

/-- R253, which the spec derives from R252 and the staged commands' rules: the same for a successful TOTP and
the staged TENCODE, HMAC, TRUNC, FORMAT. -/
def Obligations.TotpEqualsStagedSequence : Prop :=
  ∀ s t : State, issue .totp s = .next t → t.status.errCode = .none →
    ∃ s1 s2 s3 s4 : State,
      issue .tencode s = .next s1 ∧ s1.status.errCode = .none ∧
      issue .hmac s1 = .next s2 ∧ s2.status.errCode = .none ∧
      issue .trunc s2 = .next s3 ∧ s3.status.errCode = .none ∧
      issue .format s3 = .next s4 ∧ s4.status.errCode = .none ∧
      forgetLastOp s4 = forgetLastOp t

/-- R254, which the spec derives from R250 and R252: for two timestamps that are not negative and fall in the
same step window, TOTP gives identical results, all other operands equal. -/
def Obligations.TotpIdempotentWithinStep : Prop :=
  ∀ (s : State) (hi lo : Word), s.ops.timeHi.getLsbD 31 = false → hi.getLsbD 31 = false →
    (hi.toNat * 2 ^ 32 + lo.toNat) / s.ops.timeStep.toNat =
      (s.ops.timeHi.toNat * 2 ^ 32 + s.ops.timeLo.toNat) / s.ops.timeStep.toNat →
    ∃ t, exec .totp s = .next t ∧
      exec .totp { s with ops := { s.ops with timeHi := hi, timeLo := lo } } =
        .next { t with ops := { t.ops with timeHi := hi, timeLo := lo } }

/-! ## Completion and errors -/

/-- R143: every command completes from every state, and every word in progress, with the bookkeeping of
its code: LASTOP, ERRCODE, ERR set by an error and kept otherwise, DONE, BUSY 0; WIGN, the interrupt
enable, the reset input, the host and the schedule are kept. -/
def Obligations.CompletionBookkeeping : Prop :=
  ∀ (s : State) (o : Outcome) (e : ErrorCode),
    ((∃ i, o = exec i s ∧ e = reportedError i s) ∨
      (o = completion s ∧ decode s.cmd = none ∧ e = .illegalCmd)) →
    ∃ t, o = .next t ∧
      t.status.lastOp = s.cmd.extractLsb' 0 4 ∧ t.status.errCode = e ∧
      t.status.err = (if e = .none then s.status.err else true) ∧
      t.status.done = true ∧ t.busy = false ∧
      t.status.wign = s.status.wign ∧ t.irqEn = s.irqEn ∧ t.cmd = s.cmd ∧ t.rst = s.rst ∧
      t.host = s.host ∧ t.turns = s.turns

/-- R273: a command, or an illegal word, that raises an error reports it in STATUS and changes nothing
else. -/
def Obligations.ErrorReportChangesOnlyStatus : Prop :=
  (∀ (i : Instr) (s t : State), exec i s = .next t → t.status.errCode ≠ .none →
    t = afterError t.status.errCode s) ∧
  (∀ s t : State, completion s = .next t → t.status.errCode ≠ .none →
    t = afterError t.status.errCode s)

/-- R274: the same command with the same operands raises the same error again, whatever else the state
holds, and retrying changes nothing. -/
def Obligations.ErrorsRepeat : Prop :=
  ∀ (i : Instr) (s t : State), exec i s = .next t → t.status.errCode ≠ .none →
    exec i t = .next t ∧
    ∀ s' : State, s'.ops = s.ops → s'.status.msgValid = s.status.msgValid →
      s'.status.digestValid = s.status.digestValid → s'.status.truncValid = s.status.truncValid →
      exec i s' = .next (afterError t.status.errCode s')

/-- R276, with the lists of R277, which the spec derives from it: the code a completion reports is ILLEGAL_CMD
for an illegal word, else the first of the command's checks, in the order of R276, whose cause (R270)
stands. -/
def Obligations.ErrorPriority : Prop :=
  (∀ i : Instr, checksOf i = errorPriority.filter (checksOf i).contains) ∧
  (∀ s : State, decode s.cmd = none →
    ∃ t, completion s = .next t ∧ t.status.errCode = .illegalCmd) ∧
  (∀ (i : Instr) (s : State), ∃ t, exec i s = .next t ∧ t.status.errCode = reportedError i s)

/-- R37: a step sets a valid flag only as the completion of a command named for it, and clears one only as
the completion of ZEROIZE or an edge of `rst`. -/
def Obligations.ValidFlagsChangeOnlyAsNamed : Prop :=
  ∀ s t : State, step s = .next t →
    (s.status.msgValid = false → t.status.msgValid = true → s.busy = true ∧
      ∃ i ∈ [Instr.encode, .tencode, .hotp, .totp], decode s.cmd = some i) ∧
    (s.status.digestValid = false → t.status.digestValid = true → s.busy = true ∧
      ∃ i ∈ [Instr.hmac, .hotp, .totp], decode s.cmd = some i) ∧
    (s.status.truncValid = false → t.status.truncValid = true → s.busy = true ∧
      ∃ i ∈ [Instr.trunc, .hotp, .totp], decode s.cmd = some i) ∧
    (s.status.codeValid = false → t.status.codeValid = true → s.busy = true ∧
      ∃ i ∈ [Instr.format, .hotp, .totp], decode s.cmd = some i) ∧
    (∀ flag ∈ [Status.msgValid, Status.digestValid, Status.truncValid, Status.codeValid],
      flag s.status = true → flag t.status = false →
      (s.busy = true ∧ decode s.cmd = some .zeroize) ∨
      s.turns.head? = some .assertRst ∨ s.turns.head? = some .releaseRst)

/-- R41, R51, R112: no command writes an operand register or the key buffer, but ZEROIZE, which clears KEY
and KEYLEN and keeps the others. -/
def Obligations.CommandsKeepOperands : Prop :=
  ∀ (i : Instr) (s t : State), exec i s = .next t →
    (i ≠ .zeroize → t.ops = s.ops) ∧
    (i = .zeroize →
      t.ops = { s.ops with key := Vector.replicate 128 0#8, keyLen := 0#8 })

/-! ## The register window -/

/-- R81, which the spec derives from the map of R31: an offset is in use exactly when a register starts at it;
the named registers lie in 0x000-0x04F, DIGEST0-7 in 0x060-0x07F, KEY0-31 in 0x100-0x17F, and no two registers
share an offset. -/
def Obligations.RegisterMapIsComplete : Prop :=
  (∀ off size : Nat, (admitted off size).isSome = true ↔
    size = 32 ∧ off % 4 = 0 ∧ (off < 0x050 ∨ (0x060 ≤ off ∧ off < 0x080) ∨ (0x100 ≤ off ∧ off < 0x180))) ∧
  (∀ (off size : Nat) (r : Reg), admitted off size = some r ↔ size = 32 ∧ off = r.offset) ∧
  (∀ r : Reg, (0x060 ≤ r.offset ∧ r.offset < 0x080 ↔ ∃ k, r = .digest k) ∧
    (0x100 ≤ r.offset ∧ r.offset < 0x180 ↔ ∃ k, r = .key k)) ∧
  (∀ r q : Reg, r.offset = q.offset → r = q)

/-- R123: the host's turn runs its next statement: an admitted write changes the state as the write does, a
read puts the value into its temporary, `bnz` branches on a set masked bit, `halt` ends the program;
then no turn of the host changes anything. -/
def Obligations.HostTurnRunsTheNextStatement : Prop :=
  (∀ (s s' : State) (rest : List Turn) (off size : Nat) (v : Word),
    s.turns = .host :: rest → s.host.halted = false → s.host.prog[s.host.pc]? = some (.wr off size v) →
    busWrite off size v { s with turns := rest } = .ok s' →
    step s = .next { s' with host := { s.host with pc := s.host.pc + 1 } }) ∧
  (∀ (s : State) (rest : List Turn) (off size x : Nat) (v : Word),
    s.turns = .host :: rest → s.host.halted = false → s.host.prog[s.host.pc]? = some (.rd off size x) →
    busRead off size s = .ok v →
    step s = .next { s with
      turns := rest
      host := { s.host with pc := s.host.pc + 1, temps := tempSet s.host.temps x v } }) ∧
  (∀ (s : State) (rest : List Turn) (x target : Nat) (mask : Word),
    s.turns = .host :: rest → s.host.halted = false → s.host.prog[s.host.pc]? = some (.bnz x mask target) →
    step s = .next { s with
      turns := rest
      host := { s.host with
        pc := if tempGet s.host.temps x &&& mask ≠ 0#32 then target else s.host.pc + 1 } }) ∧
  (∀ (s : State) (rest : List Turn),
    s.turns = .host :: rest → s.host.halted = false → s.host.prog[s.host.pc]? = some .halt →
    step s = .next { s with turns := rest, host := { s.host with halted := true } }) ∧
  (∀ (s : State) (rest : List Turn), s.turns = .host :: rest → s.host.halted = true →
    step s = .next { s with turns := rest })

/-- R124: the pseudo-statements stand for the statements R124 lists, `wait` for the two-statement loop at
its own place, each KEY write of `key` for four bytes of the string with 0x00 past its end. Which temporary
`wait` reads into is the model's choice (notes/assumptions/6.md). -/
def Obligations.PseudoStatementsExpand : Prop :=
  ∀ (labels : List (Nat × Nat)) (pos : Nat),
    (∀ i, lineStmts labels pos (.cmd i) = some [.wr 0x00C 32 (0#28 ++ opcode i)]) ∧
    lineStmts labels pos .wait = some [.rd 0x010 32 waitTemp, .bnz waitTemp 0x1#32 pos] ∧
    lineStmts labels pos .clr = some [.wr 0x010 32 0x0000000E#32] ∧
    (∀ c, lineStmts labels pos (.counter c) =
      some [.wr 0x020 32 (c.extractLsb' 32 32), .wr 0x024 32 (c.extractLsb' 0 32)]) ∧
    (∀ t, lineStmts labels pos (.time t) =
      some [.wr 0x028 32 (t.extractLsb' 32 32), .wr 0x02C 32 (t.extractLsb' 0 32)]) ∧
    (∀ d a, lineStmts labels pos (.cfg d a) = some [.wr 0x014 32 ((a <<< 4) ||| d)]) ∧
    (∀ b : List Byte, b.length ≤ 128 → ∃ ws : List Stmt,
      lineStmts labels pos (.key b) = some (ws ++ [.wr 0x01C 32 (BitVec.ofNat 32 b.length)]) ∧
      ws.length = (b.length + 3) / 4 ∧
      ∀ k, k < ws.length → ws[k]? = some (.wr (0x100 + 4 * k) 32
        (be32 (b.getD (4 * k) 0#8) (b.getD (4 * k + 1) 0#8) (b.getD (4 * k + 2) 0#8)
          (b.getD (4 * k + 3) 0#8))))

/-- R84: a host access that is not admitted faults the host program, so the core's state is not changed and
a read gives no data. -/
def Obligations.UnadmittedAccessFaults : Prop :=
  ∀ (s : State) (rest : List Turn) (off size x : Nat) (v : Word),
    s.turns = .host :: rest → s.rst = false → s.host.halted = false → off < 0x200 →
    size ≠ 32 ∨ off % 4 ≠ 0 ∨ (0x050 ≤ off ∧ off < 0x060) ∨ (0x080 ≤ off ∧ off < 0x100) ∨ 0x180 ≤ off →
    s.host.prog[s.host.pc]? = some (.wr off size v) ∨ s.host.prog[s.host.pc]? = some (.rd off size x) →
    step s = .fault .busError

/-- R303: while `rst` is asserted no access is admitted; one faults the host program. -/
def Obligations.AccessUnderResetFaults : Prop :=
  ∀ (s : State) (rest : List Turn) (off size x : Nat) (v : Word),
    s.turns = .host :: rest → s.rst = true → s.host.halted = false →
    s.host.prog[s.host.pc]? = some (.wr off size v) ∨ s.host.prog[s.host.pc]? = some (.rd off size x) →
    step s = .fault .accessInReset

/-- R32-R49, R85: what an admitted read returns, register by register. -/
def Obligations.ReadsReturnTheRegister : Prop :=
  ∀ s : State, s.rst = false →
    busRead 0x000 32 s = .ok 0x4F545031#32 ∧
    busRead 0x004 32 s = .ok 0x00000380#32 ∧
    busRead 0x008 32 s = .ok (BitVec.ofNat 32 s.irqEn.toNat) ∧
    busRead 0x00C 32 s = .ok 0x00000000#32 ∧
    busRead 0x010 32 s = .ok (statusWord s) ∧
    busRead 0x014 32 s = .ok (BitVec.ofNat 32 (s.ops.alg.toNat * 16 + s.ops.digits.toNat)) ∧
    busRead 0x018 32 s = .ok s.ops.timeStep ∧
    busRead 0x01C 32 s = .ok (s.ops.keyLen.setWidth 32) ∧
    busRead 0x020 32 s = .ok s.ops.counterHi ∧ busRead 0x024 32 s = .ok s.ops.counterLo ∧
    busRead 0x028 32 s = .ok s.ops.timeHi ∧ busRead 0x02C 32 s = .ok s.ops.timeLo ∧
    busRead 0x030 32 s = .ok (be32 s.res.msg[0] s.res.msg[1] s.res.msg[2] s.res.msg[3]) ∧
    busRead 0x034 32 s = .ok (be32 s.res.msg[4] s.res.msg[5] s.res.msg[6] s.res.msg[7]) ∧
    busRead 0x038 32 s = .ok (s.res.digestLen.setWidth 32) ∧
    busRead 0x03C 32 s = .ok (s.res.trunc.setWidth 32) ∧
    busRead 0x040 32 s = .ok s.res.code ∧
    busRead 0x044 32 s = .ok (be32 s.res.str[0] s.res.str[1] s.res.str[2] s.res.str[3]) ∧
    busRead 0x048 32 s = .ok (be32 s.res.str[4] s.res.str[5] s.res.str[6] s.res.str[7]) ∧
    busRead 0x04C 32 s = .ok (s.res.codeLen.setWidth 32) ∧
    (∀ k : Fin 8, busRead (0x060 + 4 * k.val) 32 s = .ok (be32 s.res.dig[4 * k.val] s.res.dig[4 * k.val + 1]
      s.res.dig[4 * k.val + 2] s.res.dig[4 * k.val + 3])) ∧
    (∀ k : Fin 32, busRead (0x100 + 4 * k.val) 32 s = .ok 0x00000000#32)

/-- R36, R37: where each bit and field of STATUS stands, and that the others read 0. -/
def Obligations.StatusWordLayout : Prop :=
  ∀ s : State,
    (statusWord s).getLsbD 0 = s.busy ∧ (statusWord s).getLsbD 1 = s.status.done ∧
    (statusWord s).getLsbD 2 = s.status.err ∧ (statusWord s).getLsbD 3 = s.status.wign ∧
    (statusWord s).extractLsb' 4 4 = 0#4 ∧
    (statusWord s).extractLsb' 8 4 = s.status.errCode.bits ∧
    (statusWord s).extractLsb' 12 4 = s.status.lastOp ∧
    (statusWord s).getLsbD 16 = s.status.msgValid ∧ (statusWord s).getLsbD 17 = s.status.digestValid ∧
    (statusWord s).getLsbD 18 = s.status.truncValid ∧ (statusWord s).getLsbD 19 = s.status.codeValid ∧
    (statusWord s).extractLsb' 20 12 = 0#12

/-- R38-R42, R57, R82: an idle write to an operand register stores the register's non-reserved bits, which
read back with the reserved bits 0, and changes no other register; a write to CTRL stores bit 0, busy or
not. -/
def Obligations.WritesReadBackWithoutReservedBits : Prop :=
  (∀ (s : State) (v : Word), s.rst = false → s.busy = false →
    ∀ p ∈ [(Reg.cfg, 0x0000003F#32), (.step, 0xFFFFFFFF#32), (.keyLen, 0x000000FF#32),
      (.counterHi, 0xFFFFFFFF#32), (.counterLo, 0xFFFFFFFF#32), (.timeHi, 0xFFFFFFFF#32),
      (.timeLo, 0xFFFFFFFF#32)],
    ∃ t, busWrite p.1.offset 32 v s = .ok t ∧ busRead p.1.offset 32 t = .ok (v &&& p.2) ∧
      t = { s with ops := t.ops } ∧ t.ops.key = s.ops.key ∧
      ∀ q : Reg, q ≠ p.1 → readReg q t = readReg q s) ∧
  (∀ (s : State) (v : Word), s.rst = false → ∃ t, busWrite 0x008 32 v s = .ok t ∧
    busRead 0x008 32 t = .ok (v &&& 0x00000001#32) ∧ t = { s with irqEn := t.irqEn })

/-- R50: a write to KEYk sets KEY[4k..4k+3] from the word, its highest byte first, and no other byte; a
read of it returns 0. -/
def Obligations.KeyWritePacksBigEndian : Prop :=
  ∀ (s : State) (k : Fin 32) (v : Word), s.rst = false → s.busy = false →
    ∃ t, busWrite (0x100 + 4 * k.val) 32 v s = .ok t ∧
      t = { s with ops := { s.ops with key := t.ops.key } } ∧
      byteAt t.ops.key (4 * k.val) = v.extractLsb' 24 8 ∧
      byteAt t.ops.key (4 * k.val + 1) = v.extractLsb' 16 8 ∧
      byteAt t.ops.key (4 * k.val + 2) = v.extractLsb' 8 8 ∧
      byteAt t.ops.key (4 * k.val + 3) = v.extractLsb' 0 8 ∧
      (∀ i, i < 4 * k.val ∨ 4 * k.val + 4 ≤ i → byteAt t.ops.key i = byteAt s.ops.key i) ∧
      busRead (0x100 + 4 * k.val) 32 t = .ok 0x00000000#32

/-- R32-R49, R90: a write to a read-only register has no effect and no error. -/
def Obligations.ReadOnlyWritesHaveNoEffect : Prop :=
  ∀ (s : State) (v : Word) (r : Reg), s.rst = false →
    (r ∈ [Reg.id, .param, .msgHi, .msgLo, .dlen, .trunc, .code, .codeStr0, .codeStr1, .codeLen] ∨
      ∃ k, r = .digest k) →
    busWrite r.offset 32 v s = .ok s

/-- R36: a write to STATUS clears each of DONE, ERR and WIGN whose bit in the word is 1 and changes nothing
else, busy or not. -/
def Obligations.StatusWriteClearsEvents : Prop :=
  ∀ (s : State) (v : Word), s.rst = false →
    busWrite 0x010 32 v s = .ok { s with
      status := { s.status with
        done := if v.getLsbD 1 then false else s.status.done
        err := if v.getLsbD 2 then false else s.status.err
        wign := if v.getLsbD 3 then false else s.status.wign } }

/-- R140: an idle write to CMD accepts the word, legal or not: it is the command in progress and the core is
busy, and nothing else changes, STATUS's event and error fields included; a busy one is no accept. -/
def Obligations.AcceptStartsACommand : Prop :=
  ∀ (s : State) (v : Word), s.rst = false →
    (s.busy = false → busWrite 0x00C 32 v s = .ok { s with cmd := v, busy := true }) ∧
    (s.busy = true → ∃ t, busWrite 0x00C 32 v s = .ok t ∧ t.cmd = s.cmd)

/-- R83: while busy a write to CMD or an operand register changes nothing but WIGN, and writes to CTRL and
STATUS take effect. -/
def Obligations.BusyWritesAreIgnored : Prop :=
  ∀ (s : State) (v : Word), s.rst = false → s.busy = true →
    (∀ r : Reg, isOperandOrCmd r = true →
      busWrite r.offset 32 v s = .ok { s with status := { s.status with wign := true } }) ∧
    busWrite Reg.ctrl.offset 32 v s = .ok { s with irqEn := v.getLsbD 0 } ∧
    busWrite Reg.status.offset 32 v s = .ok { s with status := clearEvents v s.status }

/-- R83, R85, R142: whatever the host does between an accept and the completion, the operands, the results,
the command word and BUSY stay those of the accept, and the completion's results and code are those it
would have had at once. -/
def Obligations.OperandsHeldUntilCompletion : Prop :=
  ∀ (n : Nat) (s t : State) (rest : List Turn), s.busy = true → s.rst = false →
    s.turns = List.replicate n .host ++ rest → Sys2Proof.core.run n s = .next t →
    t.ops = s.ops ∧ t.res = s.res ∧ t.cmd = s.cmd ∧ t.busy = true ∧ t.rst = false ∧ t.turns = rest ∧
      ∃ u v, completion s = .next u ∧ completion t = .next v ∧
        v.ops = u.ops ∧ v.res = u.res ∧ v.status.errCode = u.status.errCode

/-- R280: `irq` is IRQ_EN and DONE: a completion raises it when IRQ_EN = 1; a write of 1 to STATUS bit 1, or
of IRQ_EN = 0, lowers it. -/
def Obligations.InterruptFollowsDone : Prop :=
  (∀ s : State, irq s = (s.irqEn && s.status.done)) ∧
  (∀ s : State, ∃ t, completion s = .next t ∧ irq t = s.irqEn) ∧
  (∀ (s : State) (v : Word), s.rst = false → v.getLsbD 1 = true →
    ∃ t, busWrite 0x010 32 v s = .ok t ∧ irq t = false) ∧
  (∀ (s : State) (v : Word), s.rst = false → v.getLsbD 0 = false →
    ∃ t, busWrite 0x008 32 v s = .ok t ∧ irq t = false)

/-- R56: a step that changes the core is a host's bus write, a completion or an edge of `rst`. -/
def Obligations.OnlyWritesCompletionsAndResetChangeTheCore : Prop :=
  ∀ s t : State, step s = .next t → ¬ sameCore s t →
    ((s.turns = [] ∨ s.turns.head? = some .host) ∧
      ∃ off size v, s.host.prog[s.host.pc]? = some (.wr off size v)) ∨
    ((s.turns = [] ∨ s.turns.head? = some .core) ∧ s.busy = true ∧ s.rst = false) ∨
    s.turns.head? = some .assertRst ∨ s.turns.head? = some .releaseRst

/-- R14, R11: an access by bus address is the access at its offset from OTP_BASE, wherever the window is;
OTP_BASE is aligned to 0x200. That an access outside the window is a bus error in the model is
notes/assumptions/5.md. -/
def Obligations.BusAddressesReachTheWindow : Prop :=
  Config.otpBase % 0x200 = 0 ∧
  (∀ (s : State) (off : Nat) (v : Word),
    memRead (Config.otpBase + off) s = busRead off 32 s ∧
    memWrite (Config.otpBase + off) v s = busWrite off 32 v s) ∧
  (∀ (s : State) (addr : Nat) (v : Word), s.rst = false →
    addr < Config.otpBase ∨ Config.otpBase + 0x200 ≤ addr →
    memRead addr s = .error .busError ∧ memWrite addr v s = .error .busError)

/-! ## Secrecy and independence -/

/-- R50, R55, R284: no turn of the host can tell two keys apart: from states that differ only in the key
buffer it leads to states that differ only there. -/
def Obligations.KeyHiddenFromTheHost : Prop :=
  ∀ (s t : State) (key : Vector Byte 128), hostTurn s = .next t →
    ∃ key', hostTurn { s with ops := { s.ops with key := key } } =
      .next { t with ops := { t.ops with key := key' } }

/-- R51: no command reads the key buffer at index KEYLEN or above: another content there gives the same
state but for the key buffer. -/
def Obligations.KeyBytesPastKeylenUnread : Prop :=
  ∀ (i : Instr) (s t : State) (key : Vector Byte 128),
    (∀ j, j < s.ops.keyLen.toNat → byteAt key j = byteAt s.ops.key j) → exec i s = .next t →
    exec i { s with ops := { s.ops with key := key } } =
      .next { t with ops := { t.ops with key := if i = .zeroize then t.ops.key else key } }

/-- R54: the word in s.cmd is not read while the core is idle: with another word there a step leads to the
same state but for it, and to the very same state once a command is in progress. -/
def Obligations.IdleCommandWordNeverRead : Prop :=
  ∀ (s t : State) (w : Word), s.busy = false → step s = .next t →
    ∃ w', step { s with cmd := w } = .next { t with cmd := w' } ∧ (t.busy = true → w' = t.cmd)

/-! ## Reset, the invariant, progress -/

/-- R301, which the spec derives from R300 and R31-R54: the state after reset, register by register and buffer
by buffer. -/
def Obligations.ResetValues : Prop :=
  (∀ r : Reg, readReg r State.reset =
    match r with
    | .id => 0x4F545031#32
    | .param => 0x00000380#32
    | .cfg => 0x00000006#32
    | .step => 30#32
    | _ => 0#32) ∧
  State.reset.irqEn = false ∧ State.reset.busy = false ∧
  State.reset.ops.digits = 6#4 ∧ State.reset.ops.alg = 0#2 ∧
  (∀ i, byteAt State.reset.ops.key i = 0x00#8) ∧ (∀ i, byteAt State.reset.res.msg i = 0x00#8) ∧
  (∀ i, byteAt State.reset.res.dig i = 0x00#8) ∧ (∀ i, byteAt State.reset.res.str i = 0x00#8)

/-- R300: when `rst` is asserted, while it is and at its release, every register, buffer and flag has its
reset value, the core is idle and `irq` is 0; a command in progress is abandoned and does not complete.
That the host keeps its state over an edge of `rst` (`t.host = s.host`) is no rule of the spec but the
model's choice (notes/assumptions/8.md). -/
def Obligations.ResetClearsAndAbandons : Prop :=
  (∀ (s : State) (rest : List Turn), s.turns = .assertRst :: rest →
    ∃ t, step s = .next t ∧ coreAtReset t ∧ irq t = false ∧ t.rst = true ∧ t.host = s.host ∧
      t.turns = rest) ∧
  (∀ s t : State, s.rst = true → coreAtReset s → step s = .next t → coreAtReset t ∧ irq t = false) ∧
  (∀ (s : State) (rest : List Turn), s.turns = .releaseRst :: rest → s.rst = true →
    ∃ t, step s = .next t ∧ coreAtReset t ∧ irq t = false ∧ t.rst = false ∧ t.host = s.host ∧
      t.turns = rest) ∧
  (∀ (s : State) (rest : List Turn), s.turns = .core :: rest → s.rst = true →
    step s = .next { s with turns := rest })

/-- The reset state satisfies the invariant. That the host has no temporaries then (`Inv.temps`) is the
model's choice (notes/assumptions/6.md). -/
def Obligations.InvariantHoldsAtReset : Prop := Inv State.reset

/-- R37, R44-R48, R52, R53, R222, R232, R300: every step keeps the invariant: flags in pipeline order, DLEN
20 or 32 with a valid digest, the code string spelling CODE, buffers clear while their flag is, reset
values under `rst` (but for s.cmd, which R301 leaves unspecified). The canonical form of the host's
temporaries (`Inv.temps`) is no rule of the spec but the model's choice (notes/assumptions/6.md). -/
def Obligations.StepKeepsInvariant : Prop :=
  ∀ s t : State, Inv s → step s = .next t → Inv t

/-- R82, R141, R145: no step faults when the host program makes only admitted accesses and `rst` is
released: every step of such a machine answers a next state. -/
def Obligations.AdmittedAccessesNeverFault : Prop :=
  ∀ s : State, s.rst = false → (∀ st ∈ s.host.prog, st.wellFormed s.host.prog.length = true) →
    ∃ t, step s = .next t ∧ t.host.prog = s.host.prog

/-- R141: every accepted command completes: under any schedule without a reset, and a host program of
admitted accesses, BUSY is 0 and DONE is 1 after at most one step more than the schedule is long. The
sequencer's turn at the schedule's end is the model's choice (notes/assumptions/2.md). -/
def Obligations.AcceptedCommandCompletes : Prop :=
  ∀ s : State, s.busy = true → s.rst = false →
    (∀ turn ∈ s.turns, turn = .host ∨ turn = .core) →
    (∀ st ∈ s.host.prog, st.wellFormed s.host.prog.length = true) →
    ∃ n t, n ≤ s.turns.length + 1 ∧ Sys2Proof.core.run n s = .next t ∧ t.busy = false ∧
      t.status.done = true ∧ t.status.lastOp = s.cmd.extractLsb' 0 4

/-! ## The hash -/

/-- R171: Pad(M) = M || 0x80 || k zero bytes || be64(8L) with the least k that fills whole blocks, and the
blocks, 64 bytes each, make up Pad(M) in order. -/
def Obligations.PaddingFillsWholeBlocks : Prop :=
  ∀ m : List Byte,
    (∃ k, pad m = m ++ [0x80#8] ++ List.replicate k 0x00#8 ++ be64 (BitVec.ofNat 64 (8 * m.length)) ∧
      (m.length + 1 + k + 8) % 64 = 0 ∧ ∀ j, j < k → (m.length + 1 + j + 8) % 64 ≠ 0) ∧
    (paddedBlocks m).flatten = pad m ∧ ∀ b ∈ paddedBlocks m, b.length = 64

/-- R172, R175, R183: the first sixteen schedule words of a block are its big-endian words, and each later
one satisfies its hash's recurrence. -/
def Obligations.MessageSchedules : Prop :=
  ∀ block : List Byte, block.length = 64 →
    (sha1Schedule block).length = 80 ∧ (sha256Schedule block).length = 64 ∧
    (∀ t, t < 16 →
      schedWord (sha1Schedule block) t = be32 (block.getD (4 * t) 0#8) (block.getD (4 * t + 1) 0#8)
        (block.getD (4 * t + 2) 0#8) (block.getD (4 * t + 3) 0#8) ∧
      schedWord (sha256Schedule block) t = schedWord (sha1Schedule block) t) ∧
    (∀ t, 16 ≤ t → t < 80 → schedWord (sha1Schedule block) t =
      (schedWord (sha1Schedule block) (t - 3) ^^^ schedWord (sha1Schedule block) (t - 8) ^^^
        schedWord (sha1Schedule block) (t - 14) ^^^ schedWord (sha1Schedule block) (t - 16)).rotateLeft 1) ∧
    (∀ t, 16 ≤ t → t < 64 → schedWord (sha256Schedule block) t =
      smallSigma1 (schedWord (sha256Schedule block) (t - 2)) + schedWord (sha256Schedule block) (t - 7) +
        smallSigma0 (schedWord (sha256Schedule block) (t - 15)) + schedWord (sha256Schedule block) (t - 16))

/-- R177, R185: the digests of "abc". -/
def Obligations.DigestsOfAbc : Prop :=
  sha1 [0x61#8, 0x62#8, 0x63#8] =
    [0xa9#8, 0x99#8, 0x3e#8, 0x36#8, 0x47#8, 0x06#8, 0x81#8, 0x6a#8, 0xba#8, 0x3e#8, 0x25#8, 0x71#8, 0x78#8,
      0x50#8, 0xc2#8, 0x6c#8, 0x9c#8, 0xd0#8, 0xd8#8, 0x9d#8] ∧
  sha256 [0x61#8, 0x62#8, 0x63#8] =
    [0xba#8, 0x78#8, 0x16#8, 0xbf#8, 0x8f#8, 0x01#8, 0xcf#8, 0xea#8, 0x41#8, 0x41#8, 0x40#8, 0xde#8, 0x5d#8,
      0xae#8, 0x22#8, 0x23#8, 0xb0#8, 0x03#8, 0x61#8, 0xa3#8, 0x96#8, 0x17#8, 0x7a#8, 0x9c#8, 0xb4#8, 0x10#8,
      0xff#8, 0x61#8, 0xf2#8, 0x00#8, 0x15#8, 0xad#8]

/-- R190: HMAC as the two hashes of the key block, exclusive-or'ed with 64 bytes of opad and ipad; its
output has DLEN bytes. -/
def Obligations.HmacConstruction : Prop :=
  ∀ (a : Alg) (key m : List Byte), ∃ k0 : List Byte,
    k0 = (if 64 < key.length then hashOf a key else key) ++
      List.replicate (64 - (if 64 < key.length then hashOf a key else key).length) 0x00#8 ∧
    k0.length = 64 ∧
    hmac a key m = hashOf a (List.zipWith (· ^^^ ·) k0 (List.replicate 64 0x5C#8) ++
      hashOf a (List.zipWith (· ^^^ ·) k0 (List.replicate 64 0x36#8) ++ m)) ∧
    (hmac a key m).length = (match a with | .sha1 => 20 | .sha256 => 32)

/-- R190, R192, R193: a key longer than a block acts as its hash under the same algorithm; zero bytes after a
key that still fit a block change nothing, so the empty key acts as a block of 0x00. -/
def Obligations.KeyLengthCases : Prop :=
  (∀ (a : Alg) (key m : List Byte), 64 < key.length → hmac a key m = hmac a (hashOf a key) m) ∧
  (∀ (a : Alg) (key m : List Byte) (n : Nat), key.length + n ≤ 64 →
    hmac a (key ++ List.replicate n 0x00#8) m = hmac a key m)
end

