-- ==== Sys2Proof/Laws/Bytes.lean ====
section
/-! SUPPORT. What the byte-order and buffer operations give: lengths, the bytes of a filled buffer, the
words of a buffer, and a word write seen byte by byte. -/

namespace Sys2Proof.Machine

@[simp] theorem wordBytes_length (w : Word) : (wordBytes w).length = 4 := rfl

@[simp] theorem be64_length (c : DWord) : (be64 c).length = 8 := rfl

@[simp] theorem byteAt_replicate_zero (n i : Nat) : byteAt (Vector.replicate n 0#8) i = 0#8 := by
  simp only [byteAt, Vector.toList_replicate, List.getD_eq_getElem?_getD, List.getElem?_replicate]
  split <;> rfl

/-- The bytes of a filled buffer, as a list. -/
theorem fillBuffer_toList (n : Nat) (bs : List Byte) :
    (fillBuffer n bs).toList = (bs ++ List.replicate n 0#8).take n := rfl

/-- Byte i of a filled buffer: byte i of the sequence, 0x00 after it and past the buffer. -/
theorem byteAt_fillBuffer (n : Nat) (bs : List Byte) (i : Nat) :
    byteAt (fillBuffer n bs) i = if i < n then bs.getD i 0#8 else 0#8 := by
  simp only [byteAt, fillBuffer_toList, List.getD_eq_getElem?_getD, List.getElem?_take,
    List.getElem?_append, List.getElem?_replicate]
  split <;> rename_i h
  · split <;> rename_i hl
    · rfl
    · rw [List.getElem?_eq_none (by omega)]
      split <;> rfl
  · rfl

/-- A buffer holds a sequence that fits from its start. -/
theorem fillBuffer_take (n : Nat) (bs : List Byte) (h : bs.length ≤ n) :
    (fillBuffer n bs).toList.take bs.length = bs := by
  rw [fillBuffer_toList, List.take_take, Nat.min_eq_left h, List.take_append_of_le_length (Nat.le_refl _),
    List.take_length]

/-- A buffer of exactly the sequence's length holds it. -/
theorem fillBuffer_toList_of_length {n : Nat} {bs : List Byte} (h : bs.length = n) :
    (fillBuffer n bs).toList = bs := by
  have := fillBuffer_take n bs (Nat.le_of_eq h)
  rwa [h, List.take_of_length_le (by simp [fillBuffer_toList])] at this

/-- Equal buffers have equal bytes, and conversely. -/
theorem buffer_ext {n : Nat} {a b : Vector Byte n} (h : ∀ i, i < n → byteAt a i = byteAt b i) : a = b := by
  apply Vector.ext
  intro i hi
  have := h i hi
  simpa [byteAt, List.getD_eq_getElem?_getD, hi] using this

/-- A word write changes its four bytes and no other (10_state.md R50). -/
theorem byteAt_setWordAt {n : Nat} (b : Vector Byte n) (k : Nat) (v : Word) (hk : 4 * k + 3 < n) (i : Nat) :
    byteAt (setWordAt b k v) i =
      if i = 4 * k then v.extractLsb' 24 8
      else if i = 4 * k + 1 then v.extractLsb' 16 8
      else if i = 4 * k + 2 then v.extractLsb' 8 8
      else if i = 4 * k + 3 then v.extractLsb' 0 8
      else byteAt b i := by
  have hl : b.toList.length = n := by simp
  have toL : ∀ (c : Vector Byte n) (j : Nat) (x : Byte),
      (c.setIfInBounds j x).toList = c.toList.set j x := by
    intro c j x; simp
  simp only [byteAt, setWordAt, toL, List.getD_eq_getElem?_getD, List.getElem?_set, List.length_set, hl]
  have h0 : 4 * k < n := by omega
  have h1 : 4 * k + 1 < n := by omega
  have h2 : 4 * k + 2 < n := by omega
  simp only [h0, h1, h2, hk, if_true]
  repeat' split
  all_goals first | rfl | omega

/-- One byte below a number: the digit form of a big-endian append. -/
theorem shiftLeft_or_byte (x : Nat) (b : Byte) : x <<< 8 ||| b.toNat = x * 256 + b.toNat := by
  rw [← Nat.shiftLeft_add_eq_or_of_lt b.isLt, Nat.shiftLeft_eq]

/-- be32 as R15 writes it. -/
theorem be32_toNat (b0 b1 b2 b3 : Byte) :
    (be32 b0 b1 b2 b3).toNat =
      b0.toNat * 2 ^ 24 + b1.toNat * 2 ^ 16 + b2.toNat * 2 ^ 8 + b3.toNat := by
  simp only [be32, BitVec.toNat_append, shiftLeft_or_byte]
  omega

/-- A 64-bit value as the big-endian numbers of its two halves' bytes. -/
theorem bytes_toNat (c : DWord) :
    ((c.extractLsb' 56 8).toNat * 2 ^ 24 + (c.extractLsb' 48 8).toNat * 2 ^ 16
        + (c.extractLsb' 40 8).toNat * 2 ^ 8 + (c.extractLsb' 32 8).toNat) * 2 ^ 32
      + ((c.extractLsb' 24 8).toNat * 2 ^ 24 + (c.extractLsb' 16 8).toNat * 2 ^ 16
        + (c.extractLsb' 8 8).toNat * 2 ^ 8 + (c.extractLsb' 0 8).toNat) = c.toNat := by
  have := c.isLt
  simp only [BitVec.extractLsb'_toNat, Nat.shiftRight_eq_div_pow]
  omega

end Sys2Proof.Machine
end

