-- ==== Sys2Proof/Laws/Decode.lean ====
section
/-! SUPPORT. Opcodes and offsets: the fields of an encoded command, what the decoder reads, and where a
register is found. -/

namespace Sys2Proof

@[simp] theorem encode_op (i : Instr) : (encode i).extractLsb' 0 4 = opcode i := by
  cases i <;> decide

@[simp] theorem encode_reserved (i : Instr) : (encode i).extractLsb' 4 28 = 0#28 := by
  cases i <;> decide

/-- A command word decodes only when its reserved bits are zero. -/
theorem decode_reserved {w : Word} (h : w.extractLsb' 4 28 ≠ 0#28) : decode w = none := by
  simp [decode, decodeWord, h]

/-- A register is found at its own index. -/
theorem regOfIndex_offset (r : Reg) : regOfIndex (r.offset / 4) = some r := by
  cases r with
  | digest k => revert k; decide
  | key k => revert k; decide
  | _ => rfl

/-- An index that names a register is a quarter of that register's offset. -/
theorem offset_of_regOfIndex {n : Nat} {r : Reg} (h : regOfIndex n = some r) : r.offset = 4 * n := by
  by_cases hn : n < 96
  · have hall : ∀ m : Fin 96, ∀ q ∈ regOfIndex m.val, q.offset = 4 * m.val := by decide
    exact hall ⟨n, hn⟩ r h
  · simp only [regOfIndex] at h
    split at h
    all_goals try omega
    rw [dif_neg (by omega), dif_neg (by omega)] at h
    cases h

/-- What an admitted access is: 32 bits wide, at the offset of its register (20_memory.md R82). -/
theorem admitted_eq_some {off size : Nat} {r : Reg} :
    admitted off size = some r ↔ size = Config.regBits ∧ off = r.offset := by
  constructor
  · intro h
    simp only [admitted] at h
    split at h
    · rename_i hc
      have := offset_of_regOfIndex h
      exact ⟨hc.1, by omega⟩
    · cases h
  · rintro ⟨rfl, rfl⟩
    have h4 : r.offset % 4 = 0 := by cases r <;> simp [Reg.offset, Nat.add_mul_mod_self_left]
    simp [admitted, h4, regOfIndex_offset]

end Sys2Proof
end

