-- ==== Sys2Proof/Laws/Otp.lean ====
section
/-! SUPPORT. The code string and the time-to-counter derivation. -/

namespace Sys2Proof.Machine

@[simp] theorem codeString_length (c d : Nat) : (codeString c d).length = d := by simp [codeString]

/-- Character i of a code string. -/
theorem codeString_getD (c d i : Nat) (h : i < d) : (codeString c d).getD i 0#8 = codeChar c d i := by
  simp [codeString, h]

/-- A character of a code string is its decimal digit above '0'. -/
theorem codeChar_toNat (c d i : Nat) :
    (codeChar c d i).toNat = 0x30 + c / 10 ^ (d - 1 - i) % 10 := by
  have := Nat.mod_lt (c / 10 ^ (d - 1 - i)) (show 10 > 0 by decide)
  simp only [codeChar, BitVec.toNat_add, BitVec.toNat_ofNat]
  omega

theorem codeValue_lt (v : BitVec 31) (d : Nat) : codeValue v d < 10 ^ d :=
  Nat.mod_lt _ (Nat.pow_pos (by decide))

/-- Everything the derivation can answer (46_totp.md R250). -/
theorem timeCounter_cases (t : DWord) (s : Word) :
    (t.msb = true ∧ timeCounter t s = .error .negTimestamp) ∨
    (t.msb = false ∧ s = 0#32 ∧ timeCounter t s = .error .badStep) ∨
    (t.msb = false ∧ s ≠ 0#32 ∧ timeCounter t s = .ok (BitVec.ofNat 64 (t.toNat / s.toNat))) := by
  by_cases ht : t.msb
  · exact .inl ⟨ht, by simp [timeCounter, ht]⟩
  · by_cases hs : s = 0#32
    · exact .inr (.inl ⟨by simpa using ht, hs, by simp [timeCounter, ht, hs]⟩)
    · exact .inr (.inr ⟨by simpa using ht, hs, by simp [timeCounter, ht, hs]⟩)

end Sys2Proof.Machine
end

