-- ==== Sys2Proof/Laws/State.lean ====
section
/-! SUPPORT. What each shared update of the state does to each field, by rfl, so that no proof unfolds
a record update. -/

namespace Sys2Proof.Machine

/-! ## accept -/

@[simp] theorem accept_irqEn (v : Word) (s : State) : (accept v s).irqEn = s.irqEn := rfl
@[simp] theorem accept_status (v : Word) (s : State) : (accept v s).status = s.status := rfl
@[simp] theorem accept_ops (v : Word) (s : State) : (accept v s).ops = s.ops := rfl
@[simp] theorem accept_res (v : Word) (s : State) : (accept v s).res = s.res := rfl
@[simp] theorem accept_busy (v : Word) (s : State) : (accept v s).busy = true := rfl
@[simp] theorem accept_cmd (v : Word) (s : State) : (accept v s).cmd = v := rfl
@[simp] theorem accept_rst (v : Word) (s : State) : (accept v s).rst = s.rst := rfl
@[simp] theorem accept_host (v : Word) (s : State) : (accept v s).host = s.host := rfl
@[simp] theorem accept_turns (v : Word) (s : State) : (accept v s).turns = s.turns := rfl

/-! ## finish -/

@[simp] theorem finish_irqEn (e : ErrorCode) (s : State) : (finish e s).irqEn = s.irqEn := rfl
@[simp] theorem finish_status (e : ErrorCode) (s : State) :
    (finish e s).status =
      recordCompletion s.cmd e s.status := rfl
@[simp] theorem finish_ops (e : ErrorCode) (s : State) : (finish e s).ops = s.ops := rfl
@[simp] theorem finish_res (e : ErrorCode) (s : State) : (finish e s).res = s.res := rfl
@[simp] theorem finish_busy (e : ErrorCode) (s : State) : (finish e s).busy = false := rfl
@[simp] theorem finish_cmd (e : ErrorCode) (s : State) : (finish e s).cmd = s.cmd := rfl
@[simp] theorem finish_rst (e : ErrorCode) (s : State) : (finish e s).rst = s.rst := rfl
@[simp] theorem finish_host (e : ErrorCode) (s : State) : (finish e s).host = s.host := rfl
@[simp] theorem finish_turns (e : ErrorCode) (s : State) : (finish e s).turns = s.turns := rfl

/-! ## resetCore -/

@[simp] theorem resetCore_irqEn (l : Bool) (s : State) : (resetCore l s).irqEn = false := rfl
@[simp] theorem resetCore_status (l : Bool) (s : State) :
    (resetCore l s).status =
      Status.reset := rfl
@[simp] theorem resetCore_ops (l : Bool) (s : State) : (resetCore l s).ops = Operands.reset := rfl
@[simp] theorem resetCore_res (l : Bool) (s : State) : (resetCore l s).res = Results.reset := rfl
@[simp] theorem resetCore_busy (l : Bool) (s : State) : (resetCore l s).busy = false := rfl
@[simp] theorem resetCore_cmd (l : Bool) (s : State) : (resetCore l s).cmd = 0#32 := rfl
@[simp] theorem resetCore_rst (l : Bool) (s : State) : (resetCore l s).rst = l := rfl
@[simp] theorem resetCore_host (l : Bool) (s : State) : (resetCore l s).host = s.host := rfl
@[simp] theorem resetCore_turns (l : Bool) (s : State) : (resetCore l s).turns = s.turns := rfl

/-! ## writeMessage -/

@[simp] theorem writeMessage_irqEn (c : DWord) (s : State) :
    (writeMessage c s).irqEn =
      s.irqEn := rfl
@[simp] theorem writeMessage_status (c : DWord) (s : State) :
    (writeMessage c s).status =
      { s.status with msgValid := true } := rfl
@[simp] theorem writeMessage_ops (c : DWord) (s : State) : (writeMessage c s).ops = s.ops := rfl
@[simp] theorem writeMessage_res (c : DWord) (s : State) :
    (writeMessage c s).res =
      { s.res with msg := fillBuffer 8 (be64 c) } := rfl
@[simp] theorem writeMessage_busy (c : DWord) (s : State) : (writeMessage c s).busy = s.busy := rfl
@[simp] theorem writeMessage_cmd (c : DWord) (s : State) : (writeMessage c s).cmd = s.cmd := rfl
@[simp] theorem writeMessage_rst (c : DWord) (s : State) : (writeMessage c s).rst = s.rst := rfl
@[simp] theorem writeMessage_host (c : DWord) (s : State) : (writeMessage c s).host = s.host := rfl
@[simp] theorem writeMessage_turns (c : DWord) (s : State) :
    (writeMessage c s).turns =
      s.turns := rfl

/-! ## writeDigest -/

@[simp] theorem writeDigest_irqEn (a : Alg) (d : List Byte) (s : State) :
    (writeDigest a d s).irqEn =
      s.irqEn := rfl
@[simp] theorem writeDigest_status (a : Alg) (d : List Byte) (s : State) :
    (writeDigest a d s).status =
      { s.status with digestValid := true } := rfl
@[simp] theorem writeDigest_ops (a : Alg) (d : List Byte) (s : State) :
    (writeDigest a d s).ops =
      s.ops := rfl
@[simp] theorem writeDigest_res (a : Alg) (d : List Byte) (s : State) :
    (writeDigest a d s).res =
      { s.res with dig := fillBuffer 32 d, digestLen := BitVec.ofNat 8 (digestBytes a) } := rfl
@[simp] theorem writeDigest_busy (a : Alg) (d : List Byte) (s : State) :
    (writeDigest a d s).busy =
      s.busy := rfl
@[simp] theorem writeDigest_cmd (a : Alg) (d : List Byte) (s : State) :
    (writeDigest a d s).cmd =
      s.cmd := rfl
@[simp] theorem writeDigest_rst (a : Alg) (d : List Byte) (s : State) :
    (writeDigest a d s).rst =
      s.rst := rfl
@[simp] theorem writeDigest_host (a : Alg) (d : List Byte) (s : State) :
    (writeDigest a d s).host =
      s.host := rfl
@[simp] theorem writeDigest_turns (a : Alg) (d : List Byte) (s : State) :
    (writeDigest a d s).turns =
      s.turns := rfl

/-! ## writeTrunc -/

@[simp] theorem writeTrunc_irqEn (v : BitVec 31) (s : State) :
    (writeTrunc v s).irqEn =
      s.irqEn := rfl
@[simp] theorem writeTrunc_status (v : BitVec 31) (s : State) :
    (writeTrunc v s).status =
      { s.status with truncValid := true } := rfl
@[simp] theorem writeTrunc_ops (v : BitVec 31) (s : State) : (writeTrunc v s).ops = s.ops := rfl
@[simp] theorem writeTrunc_res (v : BitVec 31) (s : State) :
    (writeTrunc v s).res =
      { s.res with trunc := v } := rfl
@[simp] theorem writeTrunc_busy (v : BitVec 31) (s : State) : (writeTrunc v s).busy = s.busy := rfl
@[simp] theorem writeTrunc_cmd (v : BitVec 31) (s : State) : (writeTrunc v s).cmd = s.cmd := rfl
@[simp] theorem writeTrunc_rst (v : BitVec 31) (s : State) : (writeTrunc v s).rst = s.rst := rfl
@[simp] theorem writeTrunc_host (v : BitVec 31) (s : State) : (writeTrunc v s).host = s.host := rfl
@[simp] theorem writeTrunc_turns (v : BitVec 31) (s : State) :
    (writeTrunc v s).turns =
      s.turns := rfl

/-! ## writeCode -/

@[simp] theorem writeCode_irqEn (v : BitVec 31) (d : BitVec 4) (s : State) :
    (writeCode v d s).irqEn =
      s.irqEn := rfl
@[simp] theorem writeCode_status (v : BitVec 31) (d : BitVec 4) (s : State) :
    (writeCode v d s).status =
      { s.status with codeValid := true } := rfl
@[simp] theorem writeCode_ops (v : BitVec 31) (d : BitVec 4) (s : State) :
    (writeCode v d s).ops =
      s.ops := rfl
@[simp] theorem writeCode_res (v : BitVec 31) (d : BitVec 4) (s : State) :
    (writeCode v d s).res =
      { s.res with
      code := BitVec.ofNat 32 (codeValue v d.toNat)
      str := fillBuffer 8 (codeString (codeValue v d.toNat) d.toNat)
      codeLen := d } := rfl
@[simp] theorem writeCode_busy (v : BitVec 31) (d : BitVec 4) (s : State) :
    (writeCode v d s).busy =
      s.busy := rfl
@[simp] theorem writeCode_cmd (v : BitVec 31) (d : BitVec 4) (s : State) :
    (writeCode v d s).cmd =
      s.cmd := rfl
@[simp] theorem writeCode_rst (v : BitVec 31) (d : BitVec 4) (s : State) :
    (writeCode v d s).rst =
      s.rst := rfl
@[simp] theorem writeCode_host (v : BitVec 31) (d : BitVec 4) (s : State) :
    (writeCode v d s).host =
      s.host := rfl
@[simp] theorem writeCode_turns (v : BitVec 31) (d : BitVec 4) (s : State) :
    (writeCode v d s).turns =
      s.turns := rfl

/-! ## runPipeline -/

@[simp] theorem runPipeline_irqEn (a : Alg) (c : DWord) (s : State) :
    (runPipeline a c s).irqEn =
      s.irqEn := rfl
@[simp] theorem runPipeline_status (a : Alg) (c : DWord) (s : State) :
    (runPipeline a c s).status =
      { s.status with
      msgValid := true, digestValid := true, truncValid := true, codeValid := true } := rfl
@[simp] theorem runPipeline_ops (a : Alg) (c : DWord) (s : State) :
    (runPipeline a c s).ops =
      s.ops := rfl
@[simp] theorem runPipeline_res (a : Alg) (c : DWord) (s : State) :
    (runPipeline a c s).res =
      { msg := fillBuffer 8 (be64 c)
        dig := fillBuffer 32 (hmac a (secretOf s) (be64 c))
        digestLen := BitVec.ofNat 8 (digestBytes a)
        trunc := dynamicTruncate (hmac a (secretOf s) (be64 c))
        code := BitVec.ofNat 32
          (codeValue (dynamicTruncate (hmac a (secretOf s) (be64 c))) s.ops.digits.toNat)
        str := fillBuffer 8 (codeString
          (codeValue (dynamicTruncate (hmac a (secretOf s) (be64 c))) s.ops.digits.toNat)
          s.ops.digits.toNat)
        codeLen := s.ops.digits } := rfl
@[simp] theorem runPipeline_busy (a : Alg) (c : DWord) (s : State) :
    (runPipeline a c s).busy =
      s.busy := rfl
@[simp] theorem runPipeline_cmd (a : Alg) (c : DWord) (s : State) :
    (runPipeline a c s).cmd =
      s.cmd := rfl
@[simp] theorem runPipeline_rst (a : Alg) (c : DWord) (s : State) :
    (runPipeline a c s).rst =
      s.rst := rfl
@[simp] theorem runPipeline_host (a : Alg) (c : DWord) (s : State) :
    (runPipeline a c s).host =
      s.host := rfl
@[simp] theorem runPipeline_turns (a : Alg) (c : DWord) (s : State) :
    (runPipeline a c s).turns =
      s.turns := rfl

/-! ## zeroizeData -/

@[simp] theorem zeroizeData_irqEn (s : State) : (zeroizeData s).irqEn = s.irqEn := rfl
@[simp] theorem zeroizeData_status (s : State) :
    (zeroizeData s).status =
      { s.status with
      msgValid := false, digestValid := false, truncValid := false, codeValid := false } := rfl
@[simp] theorem zeroizeData_ops (s : State) :
    (zeroizeData s).ops =
      { s.ops with key := Vector.replicate 128 0#8, keyLen := 0#8 } := rfl
@[simp] theorem zeroizeData_res (s : State) : (zeroizeData s).res = Results.reset := rfl
@[simp] theorem zeroizeData_busy (s : State) : (zeroizeData s).busy = s.busy := rfl
@[simp] theorem zeroizeData_cmd (s : State) : (zeroizeData s).cmd = s.cmd := rfl
@[simp] theorem zeroizeData_rst (s : State) : (zeroizeData s).rst = s.rst := rfl
@[simp] theorem zeroizeData_host (s : State) : (zeroizeData s).host = s.host := rfl
@[simp] theorem zeroizeData_turns (s : State) : (zeroizeData s).turns = s.turns := rfl

/-! ## ignoreWrite -/

@[simp] theorem ignoreWrite_irqEn (s : State) : (ignoreWrite s).irqEn = s.irqEn := rfl
@[simp] theorem ignoreWrite_status (s : State) :
    (ignoreWrite s).status =
      { s.status with wign := true } := rfl
@[simp] theorem ignoreWrite_ops (s : State) : (ignoreWrite s).ops = s.ops := rfl
@[simp] theorem ignoreWrite_res (s : State) : (ignoreWrite s).res = s.res := rfl
@[simp] theorem ignoreWrite_busy (s : State) : (ignoreWrite s).busy = s.busy := rfl
@[simp] theorem ignoreWrite_cmd (s : State) : (ignoreWrite s).cmd = s.cmd := rfl
@[simp] theorem ignoreWrite_rst (s : State) : (ignoreWrite s).rst = s.rst := rfl
@[simp] theorem ignoreWrite_host (s : State) : (ignoreWrite s).host = s.host := rfl
@[simp] theorem ignoreWrite_turns (s : State) : (ignoreWrite s).turns = s.turns := rfl

/-! ## hostGoto -/

@[simp] theorem hostGoto_irqEn (pc : Nat) (s : State) : (hostGoto pc s).irqEn = s.irqEn := rfl
@[simp] theorem hostGoto_status (pc : Nat) (s : State) : (hostGoto pc s).status = s.status := rfl
@[simp] theorem hostGoto_ops (pc : Nat) (s : State) : (hostGoto pc s).ops = s.ops := rfl
@[simp] theorem hostGoto_res (pc : Nat) (s : State) : (hostGoto pc s).res = s.res := rfl
@[simp] theorem hostGoto_busy (pc : Nat) (s : State) : (hostGoto pc s).busy = s.busy := rfl
@[simp] theorem hostGoto_cmd (pc : Nat) (s : State) : (hostGoto pc s).cmd = s.cmd := rfl
@[simp] theorem hostGoto_rst (pc : Nat) (s : State) : (hostGoto pc s).rst = s.rst := rfl
@[simp] theorem hostGoto_host (pc : Nat) (s : State) :
    (hostGoto pc s).host =
      { s.host with pc := pc } := rfl
@[simp] theorem hostGoto_turns (pc : Nat) (s : State) : (hostGoto pc s).turns = s.turns := rfl

/-! ## hostAdvance -/

@[simp] theorem hostAdvance_irqEn (s : State) : (hostAdvance s).irqEn = s.irqEn := rfl
@[simp] theorem hostAdvance_status (s : State) : (hostAdvance s).status = s.status := rfl
@[simp] theorem hostAdvance_ops (s : State) : (hostAdvance s).ops = s.ops := rfl
@[simp] theorem hostAdvance_res (s : State) : (hostAdvance s).res = s.res := rfl
@[simp] theorem hostAdvance_busy (s : State) : (hostAdvance s).busy = s.busy := rfl
@[simp] theorem hostAdvance_cmd (s : State) : (hostAdvance s).cmd = s.cmd := rfl
@[simp] theorem hostAdvance_rst (s : State) : (hostAdvance s).rst = s.rst := rfl
@[simp] theorem hostAdvance_host (s : State) :
    (hostAdvance s).host =
      { s.host with pc := s.host.pc + 1 } := rfl
@[simp] theorem hostAdvance_turns (s : State) : (hostAdvance s).turns = s.turns := rfl

/-! ## hostReceive -/

@[simp] theorem hostReceive_irqEn (t : Nat) (v : Word) (s : State) :
    (hostReceive t v s).irqEn =
      s.irqEn := rfl
@[simp] theorem hostReceive_status (t : Nat) (v : Word) (s : State) :
    (hostReceive t v s).status =
      s.status := rfl
@[simp] theorem hostReceive_ops (t : Nat) (v : Word) (s : State) :
    (hostReceive t v s).ops =
      s.ops := rfl
@[simp] theorem hostReceive_res (t : Nat) (v : Word) (s : State) :
    (hostReceive t v s).res =
      s.res := rfl
@[simp] theorem hostReceive_busy (t : Nat) (v : Word) (s : State) :
    (hostReceive t v s).busy =
      s.busy := rfl
@[simp] theorem hostReceive_cmd (t : Nat) (v : Word) (s : State) :
    (hostReceive t v s).cmd =
      s.cmd := rfl
@[simp] theorem hostReceive_rst (t : Nat) (v : Word) (s : State) :
    (hostReceive t v s).rst =
      s.rst := rfl
@[simp] theorem hostReceive_host (t : Nat) (v : Word) (s : State) :
    (hostReceive t v s).host =
      { s.host with temps := tempSet s.host.temps t v, pc := s.host.pc + 1 } := rfl
@[simp] theorem hostReceive_turns (t : Nat) (v : Word) (s : State) :
    (hostReceive t v s).turns =
      s.turns := rfl

/-! ## recordCompletion -/

@[simp] theorem recordCompletion_done (w : Word) (e : ErrorCode) (st : Status) :
    (recordCompletion w e st).done = true := rfl
@[simp] theorem recordCompletion_err (w : Word) (e : ErrorCode) (st : Status) :
    (recordCompletion w e st).err = if e = .none then st.err else true := rfl
@[simp] theorem recordCompletion_wign (w : Word) (e : ErrorCode) (st : Status) :
    (recordCompletion w e st).wign = st.wign := rfl
@[simp] theorem recordCompletion_errCode (w : Word) (e : ErrorCode) (st : Status) :
    (recordCompletion w e st).errCode = e := rfl
@[simp] theorem recordCompletion_lastOp (w : Word) (e : ErrorCode) (st : Status) :
    (recordCompletion w e st).lastOp = w.extractLsb' 0 4 := rfl
@[simp] theorem recordCompletion_msgValid (w : Word) (e : ErrorCode) (st : Status) :
    (recordCompletion w e st).msgValid = st.msgValid := rfl
@[simp] theorem recordCompletion_digestValid (w : Word) (e : ErrorCode) (st : Status) :
    (recordCompletion w e st).digestValid = st.digestValid := rfl
@[simp] theorem recordCompletion_truncValid (w : Word) (e : ErrorCode) (st : Status) :
    (recordCompletion w e st).truncValid = st.truncValid := rfl
@[simp] theorem recordCompletion_codeValid (w : Word) (e : ErrorCode) (st : Status) :
    (recordCompletion w e st).codeValid = st.codeValid := rfl

/-! ## clearEvents -/

@[simp] theorem clearEvents_done (v : Word) (st : Status) :
    (clearEvents v st).done = (st.done && !v.getLsbD 1) := rfl
@[simp] theorem clearEvents_err (v : Word) (st : Status) :
    (clearEvents v st).err = (st.err && !v.getLsbD 2) := rfl
@[simp] theorem clearEvents_wign (v : Word) (st : Status) :
    (clearEvents v st).wign = (st.wign && !v.getLsbD 3) := rfl
@[simp] theorem clearEvents_errCode (v : Word) (st : Status) :
    (clearEvents v st).errCode = st.errCode := rfl
@[simp] theorem clearEvents_lastOp (v : Word) (st : Status) :
    (clearEvents v st).lastOp = st.lastOp := rfl
@[simp] theorem clearEvents_msgValid (v : Word) (st : Status) :
    (clearEvents v st).msgValid = st.msgValid := rfl
@[simp] theorem clearEvents_digestValid (v : Word) (st : Status) :
    (clearEvents v st).digestValid = st.digestValid := rfl
@[simp] theorem clearEvents_truncValid (v : Word) (st : Status) :
    (clearEvents v st).truncValid = st.truncValid := rfl
@[simp] theorem clearEvents_codeValid (v : Word) (st : Status) :
    (clearEvents v st).codeValid = st.codeValid := rfl

end Sys2Proof.Machine
end

