-- ==== Sys2Proof/Laws/Operands.lean ====
section
/-! SUPPORT. The operand checks as inequalities, 64-bit operands as numbers, the selector by value. -/

namespace Sys2Proof.Machine

theorem digitsOutOfBounds_iff (s : State) :
    digitsOutOfBounds s = true ↔ s.ops.digits.toNat < 6 ∨ 8 < s.ops.digits.toNat := by
  simp only [digitsOutOfBounds, Bool.or_eq_true, decide_eq_true_eq]; rfl

theorem digitsOutOfBounds_eq_false_iff (s : State) :
    digitsOutOfBounds s = false ↔ 6 ≤ s.ops.digits.toNat ∧ s.ops.digits.toNat ≤ 8 := by
  rw [← Bool.not_eq_true, digitsOutOfBounds_iff]; omega

theorem keyLenBad_iff (s : State) : keyLenBad s = true ↔ 128 < s.ops.keyLen.toNat := by
  simp only [keyLenBad, decide_eq_true_eq]; rfl

theorem keyLenBad_eq_false_iff (s : State) : keyLenBad s = false ↔ s.ops.keyLen.toNat ≤ 128 := by
  rw [← Bool.not_eq_true, keyLenBad_iff]; omega

/-- A register pair as a number: the high word times 2^32 plus the low word (20_memory.md R88). -/
theorem append_words_toNat (hi lo : Word) : (hi ++ lo).toNat = hi.toNat * 2 ^ 32 + lo.toNat := by
  rw [BitVec.toNat_append, ← Nat.shiftLeft_add_eq_or_of_lt lo.isLt, Nat.shiftLeft_eq]

theorem timestampOf_toNat (s : State) :
    (timestampOf s).toNat = s.ops.timeHi.toNat * 2 ^ 32 + s.ops.timeLo.toNat :=
  append_words_toNat _ _

/-- The timestamp is negative exactly when TIME_HI[31] = 1 (10_state.md R42). -/
theorem timestampOf_msb (s : State) : (timestampOf s).msb = s.ops.timeHi.getLsbD 31 := by
  rw [timestampOf, BitVec.msb_append]; simp [BitVec.msb_eq_getLsbD_last]

theorem timeCounter_negative {t : DWord} {s : Word} (h : t.msb = true) :
    timeCounter t s = .error .negTimestamp := by
  simp [timeCounter, h]

theorem timeCounter_zeroStep {t : DWord} (h : t.msb = false) :
    timeCounter t 0#32 = .error .badStep := by
  simp [timeCounter, h]

theorem timeCounter_quotient {t : DWord} {s : Word} (h : t.msb = false) (hs : s ≠ 0#32) :
    timeCounter t s = .ok (BitVec.ofNat 64 (t.toNat / s.toNat)) := by
  simp [timeCounter, h, hs]

/-- Every selector value: the two algorithms, and two that are not recognised (30_encoding.md R120). -/
theorem selectAlg_cases (a : BitVec 2) :
    (a = 0#2 ∧ selectAlg a = some .sha1) ∨ (a = 1#2 ∧ selectAlg a = some .sha256) ∨
      ((a = 2#2 ∨ a = 3#2) ∧ selectAlg a = none) := by
  revert a; decide

end Sys2Proof.Machine
end

