-- ==== Sys2Proof/Laws/Errors.lean ====
section
/-! SUPPORT. The causes of the error codes as the checks of the meanings. -/

namespace Sys2Proof.Machine

theorem errorApplies_outOfBounds (i : Instr) (s : State) :
    errorApplies i s .outOfBounds = digitsOutOfBounds s := by
  simp only [errorApplies, digitsOutOfBounds, Config.digitsMin, Config.digitsMax]
  generalize s.ops.digits = d
  revert d
  decide

theorem errorApplies_unsupportedAlgorithm (i : Instr) (s : State) :
    errorApplies i s .unsupportedAlgorithm = (selectAlg s.ops.alg).isNone := by
  simp only [errorApplies]
  generalize s.ops.alg = a
  revert a
  decide

theorem errorApplies_badKeyLen (i : Instr) (s : State) : errorApplies i s .badKeyLen = keyLenBad s := rfl

theorem errorApplies_negTimestamp (i : Instr) (s : State) :
    errorApplies i s .negTimestamp = (timestampOf s).msb := by
  rw [timestampOf_msb]; rfl

/-- The three answers of the derivation, each with the causes that stand. -/
theorem timeCounter_causes (i : Instr) (s : State) :
    (errorApplies i s .negTimestamp = true ∧
      timeCounter (timestampOf s) s.ops.timeStep = .error .negTimestamp) ∨
    (errorApplies i s .negTimestamp = false ∧ errorApplies i s .badStep = true ∧
      timeCounter (timestampOf s) s.ops.timeStep = .error .badStep) ∨
    (errorApplies i s .negTimestamp = false ∧ errorApplies i s .badStep = false ∧
      timeCounter (timestampOf s) s.ops.timeStep =
        .ok (BitVec.ofNat 64 ((timestampOf s).toNat / s.ops.timeStep.toNat))) := by
  rw [errorApplies_negTimestamp]
  rcases timeCounter_cases (timestampOf s) s.ops.timeStep with ⟨h, hh⟩ | ⟨h, hz, hh⟩ | ⟨h, hz, hh⟩
  · exact .inl ⟨h, hh⟩
  · exact .inr (.inl ⟨h, beq_iff_eq.mpr hz, hh⟩)
  · exact .inr (.inr ⟨h, beq_eq_false_iff_ne.mpr hz, hh⟩)

end Sys2Proof.Machine
end

