-- ==== Sys2Proof/Laws/Hash.lean ====
section
/-! SUPPORT. Lengths through the hash: outputs, padding, blocks, words and schedules. -/

namespace Sys2Proof.Machine

@[simp] theorem sha1Output_length (h : Sha1Vars) : (sha1Output h).length = 20 := rfl

@[simp] theorem sha256Output_length (h : Sha256Vars) : (sha256Output h).length = 32 := rfl

@[simp] theorem hashOf_length (a : Alg) (m : List Byte) : (hashOf a m).length = digestBytes a := by
  cases a <;> rfl

@[simp] theorem hmac_length (a : Alg) (k m : List Byte) : (hmac a k m).length = digestBytes a := by
  simp [hmac]

theorem digestBytes_le (a : Alg) : digestBytes a ≤ 32 := by cases a <;> decide

@[simp] theorem digestBytes_toNat (a : Alg) : (BitVec.ofNat 8 (digestBytes a)).toNat = digestBytes a := by
  cases a <;> rfl

/-- Extending a schedule n times adds n words. -/
@[simp] theorem extendSchedule_length (next : List Word → Word) (n : Nat) (w : List Word) :
    (extendSchedule next n w).length = w.length + n := by
  induction n generalizing w with
  | zero => rfl
  | succ n ih => simp [extendSchedule, ih]; omega

/-- Extending a schedule keeps the words it has. -/
theorem extendSchedule_keeps (next : List Word → Word) (n : Nat) (w : List Word) :
    ∃ more, extendSchedule next n w = w ++ more := by
  induction n generalizing w with
  | zero => exact ⟨[], by simp [extendSchedule]⟩
  | succ n ih =>
    obtain ⟨more, h⟩ := ih (w ++ [next w])
    exact ⟨next w :: more, by simp [extendSchedule, h]⟩

/-- A block of 4n bytes is n words. -/
theorem blockWords_length (n : Nat) (block : List Byte) (h : block.length = 4 * n) :
    (blockWords block).length = n := by
  induction n generalizing block with
  | zero => simp [List.length_eq_zero_iff.mp (by omega : block.length = 0), blockWords]
  | succ n ih =>
    match block, h with
    | b0 :: b1 :: b2 :: b3 :: rest, h =>
      simp only [blockWords, List.length_cons] at h ⊢
      rw [ih rest (by omega)]

/-- The key block of HMAC is one block when the key, or its hash, fits one. -/
theorem hmacKeyBlock_length (a : Alg) (key : List Byte) :
    (hmacKeyBlock a key).length = Config.blockBytes := by
  have := digestBytes_le a
  simp only [hmacKeyBlock, List.length_append, List.length_replicate, Config.blockBytes]
  by_cases h : key.length > 64 <;> simp [h] <;> omega

end Sys2Proof.Machine
end

