-- ==== Sys2Proof/Laws/HostProgram.lean ====
section
/-! SUPPORT. The host's temporaries keep their canonical form and read what was written; a line of the
assembler has the size it is counted with; what a host turn can do. -/

namespace Sys2Proof.Machine

/-! ## Temporaries -/

theorem tempsWf_cons {p : Nat × Word} {ts : List (Nat × Word)} :
    tempsWf (p :: ts) = true ↔
      (∀ q ∈ ts, p.1 < q.1) ∧ p.2 ≠ 0#32 ∧ tempsWf ts = true := by
  simp only [tempsWf, List.pairwise_cons, List.all_cons, Bool.and_eq_true, decide_eq_true_eq, bne_iff_ne,
    ne_eq]
  tauto

/-- Every name a set store lists was listed before or is the one set. -/
theorem tempSet_names {ts : List (Nat × Word)} {t : Nat} {v : Word} {q : Nat × Word}
    (h : q ∈ tempSet ts t v) : q.1 = t ∨ q ∈ ts := by
  induction ts with
  | nil =>
    simp only [tempSet] at h
    split at h
    · cases h
    · simp only [List.mem_singleton] at h; exact .inl (by rw [h])
  | cons p rest ih =>
    obtain ⟨n, w⟩ := p
    simp only [tempSet] at h
    split at h
    · split at h
      · exact .inr h
      · rcases List.mem_cons.mp h with rfl | h
        · exact .inl rfl
        · exact .inr h
    · split at h
      · rename_i hn
        split at h
        · exact .inr (List.mem_cons_of_mem _ h)
        · rcases List.mem_cons.mp h with rfl | h
          · exact .inl hn.symm
          · exact .inr (List.mem_cons_of_mem _ h)
      · rcases List.mem_cons.mp h with rfl | h
        · exact .inr (List.mem_cons_self ..)
        · rcases ih h with h | h
          · exact .inl h
          · exact .inr (List.mem_cons_of_mem _ h)

/-- Setting a temporary keeps the canonical form. -/
theorem tempSet_wf {ts : List (Nat × Word)} (t : Nat) (v : Word) (h : tempsWf ts = true) :
    tempsWf (tempSet ts t v) = true := by
  induction ts with
  | nil => by_cases hv : v = 0#32 <;> simp [tempSet, hv, tempsWf]
  | cons p rest ih =>
    obtain ⟨n, w⟩ := p
    obtain ⟨hlt, hw, hrest⟩ := tempsWf_cons.mp h
    simp only [tempSet]
    split
    · rename_i htn
      split
      · exact h
      · rename_i hv
        refine tempsWf_cons.mpr ⟨?_, hv, h⟩
        intro q hq
        rcases List.mem_cons.mp hq with rfl | hq
        · exact htn
        · exact Nat.lt_trans htn (hlt q hq)
    · split
      · split
        · exact hrest
        · rename_i hv
          exact tempsWf_cons.mpr ⟨hlt, hv, hrest⟩
      · refine tempsWf_cons.mpr ⟨?_, hw, ih hrest⟩
        intro q hq
        rcases tempSet_names hq with rfl | hq
        · omega
        · exact hlt q hq

/-- A name below every listed one reads 0. -/
theorem tempGet_below {ts : List (Nat × Word)} {t : Nat} (h : ∀ q ∈ ts, t < q.1) : tempGet ts t = 0#32 := by
  cases ts with
  | nil => rfl
  | cons p rest =>
    have := h p (List.mem_cons_self ..)
    simp only [tempGet]
    rw [if_neg (by omega), if_pos this]

/-- A set temporary reads the value set, every other one reads as before. -/
theorem tempGet_tempSet {ts : List (Nat × Word)} (h : tempsWf ts = true) (t : Nat) (v : Word) (u : Nat) :
    tempGet (tempSet ts t v) u = if u = t then v else tempGet ts u := by
  induction ts with
  | nil =>
    by_cases hv : v = 0#32
    · subst hv; simp [tempSet, tempGet]
    · simp [tempSet, tempGet, hv]
  | cons p rest ih =>
    obtain ⟨n, w⟩ := p
    obtain ⟨hlt, hw, hrest⟩ := tempsWf_cons.mp h
    have key : ∀ q ∈ rest, n < q.1 := hlt
    simp only [tempSet]
    split
    · rename_i htn
      split
      · rename_i hv
        subst hv
        by_cases hu : u = t
        · subst hu; simp only [tempGet, if_true]; rw [if_neg (by omega), if_pos htn]
        · simp [hu]
      · simp only [tempGet]
        by_cases hu : u = t
        · simp [hu]
        · rw [if_neg hu, if_neg hu]
          by_cases hlt' : u < t
          · rw [if_pos hlt', if_neg (by omega), if_pos (by omega)]
          · rw [if_neg hlt']
    · split
      · rename_i htn
        subst htn
        split
        · rename_i hv
          subst hv
          by_cases hu : u = t
          · subst hu; simp [tempGet_below key]
          · rw [if_neg hu]
            simp only [tempGet, if_neg hu]
            split
            · rename_i hut
              exact tempGet_below fun q hq => Nat.lt_trans hut (key q hq)
            · rfl
        · simp only [tempGet]
          split <;> rfl
      · simp only [tempGet]
        by_cases hu : u = n
        · subst hu; rw [if_pos rfl, if_pos rfl, if_neg (by omega)]
        · rw [if_neg hu, if_neg hu]
          by_cases hun : u < n
          · rw [if_pos hun, if_pos hun, if_neg (by omega)]
          · rw [if_neg hun, if_neg hun]; exact ih hrest

/-! ## Assembler -/

theorem keyWrites_length (k : Nat) (bs : List Byte) : (keyWrites k bs).length = (bs.length + 3) / 4 := by
  induction k, bs using keyWrites.induct with
  | case5 k b0 b1 b2 b3 rest ih => simp [keyWrites, ih]; omega
  | _ => simp [keyWrites]

/-- A line assembles to as many statements as the label table counts for it. -/
theorem lineStmts_length {labels : List (Nat × Nat)} {pos : Nat} {line : Line} {ss : List Stmt}
    (h : lineStmts labels pos line = some ss) : ss.length = lineSize line := by
  cases line with
  | bnz t mask l =>
    simp only [lineStmts, Option.map_eq_some_iff] at h
    obtain ⟨_, _, rfl⟩ := h
    rfl
  | key secret => cases h; simp [lineSize, keyWrites_length]
  | _ => cases h; rfl

/-! ## The bus and the host's turn -/

/-- Everything a write can answer (20_memory.md R82, R84, 70_reset_and_hazards.md R303). -/
theorem busWrite_cases (off size : Nat) (v : Word) (s : State) :
    (s.rst = true ∧ busWrite off size v s = .error .accessInReset) ∨
    (s.rst = false ∧ admitted off size = none ∧ busWrite off size v s = .error .busError) ∨
    (∃ r, s.rst = false ∧ size = 32 ∧ off = r.offset ∧ busWrite off size v s = .ok (writeReg r v s)) := by
  by_cases hr : s.rst
  · exact .inl ⟨hr, by simp [busWrite, hr]⟩
  · have hr' : s.rst = false := by simpa using hr
    cases ha : admitted off size with
    | none => exact .inr (.inl ⟨hr', rfl, by simp [busWrite, hr', ha]⟩)
    | some r =>
      obtain ⟨hs, ho⟩ := admitted_eq_some.mp ha
      exact .inr (.inr ⟨r, hr', hs, ho, by simp [busWrite, hr', ha]⟩)

/-- Everything a read can answer (20_memory.md R84, R85, 70_reset_and_hazards.md R303). -/
theorem busRead_cases (off size : Nat) (s : State) :
    (s.rst = true ∧ busRead off size s = .error .accessInReset) ∨
    (s.rst = false ∧ admitted off size = none ∧ busRead off size s = .error .busError) ∨
    (∃ r, s.rst = false ∧ size = 32 ∧ off = r.offset ∧ busRead off size s = .ok (readReg r s)) := by
  by_cases hr : s.rst
  · exact .inl ⟨hr, by simp [busRead, hr]⟩
  · have hr' : s.rst = false := by simpa using hr
    cases ha : admitted off size with
    | none => exact .inr (.inl ⟨hr', rfl, by simp [busRead, hr', ha]⟩)
    | some r =>
      obtain ⟨hs, ho⟩ := admitted_eq_some.mp ha
      exact .inr (.inr ⟨r, hr', hs, ho, by simp [busRead, hr', ha]⟩)

/-- A write to a register of a core out of reset. -/
theorem busWrite_register {s : State} (h : s.rst = false) (r : Reg) (v : Word) :
    busWrite r.offset 32 v s = .ok (writeReg r v s) := by
  have ha : admitted r.offset 32 = some r := admitted_eq_some.mpr ⟨rfl, rfl⟩
  simp [busWrite, h, ha]

/-- A read of a register of a core out of reset. -/
theorem busRead_register {s : State} (h : s.rst = false) (r : Reg) :
    busRead r.offset 32 s = .ok (readReg r s) := by
  have ha : admitted r.offset 32 = some r := admitted_eq_some.mpr ⟨rfl, rfl⟩
  simp [busRead, h, ha]

/-- The turn of a host that has not halted is its next statement. -/
theorem hostTurn_running {s : State} {st : Stmt} (h : s.host.halted = false)
    (hp : s.host.prog[s.host.pc]? = some st) : hostTurn s = hostStatement st s := by
  simp [hostTurn, h, hp]

/-- The turn of a halted host changes nothing. -/
theorem hostTurn_halted {s : State} (h : s.host.halted = true) : hostTurn s = .next s := by
  simp [hostTurn, h]

/-- Everything an admitted write can do: an event is recorded, the interrupt enable or the W1C bits are
written, a command is accepted, an operand register is written, or nothing happens (20_memory.md R82). -/
theorem writeReg_cases (r : Reg) (v : Word) (s : State) :
    (r = .ctrl ∧ writeReg r v s = { s with irqEn := v.getLsbD 0 }) ∨
    (r = .status ∧ writeReg r v s = { s with status := clearEvents v s.status }) ∨
    writeReg r v s = s ∨
    (s.busy = true ∧ writeReg r v s = ignoreWrite s) ∨
    (r = .cmd ∧ s.busy = false ∧ writeReg r v s = accept v s) ∨
    (s.busy = false ∧ writeReg r v s = { s with ops := writeOperand r v s.ops }) := by
  cases hb : s.busy <;> cases r <;> simp [writeReg, hb]

/-- Everything one host turn that goes on can do to the state. -/
theorem hostTurn_next_cases {s t : State} (h : hostTurn s = .next t) :
    t = s ∨
    (∃ r v, s.rst = false ∧ t = hostAdvance (writeReg r v s)) ∨
    (∃ r x, s.rst = false ∧ t = hostReceive x (readReg r s) s) ∨
    (∃ pc, t = hostGoto pc s) ∨
    t = { s with host := { s.host with halted := true } } := by
  simp only [hostTurn] at h
  split at h
  · cases h; exact .inl rfl
  · split at h
    · cases h; exact .inl rfl
    · rename_i st _
      cases st with
      | wr off size v =>
        simp only [hostStatement] at h
        rcases busWrite_cases off size v s with ⟨_, hb⟩ | ⟨_, _, hb⟩ | ⟨r, hr, _, _, hb⟩ <;> rw [hb] at h
        · cases h
        · cases h
        · cases h; exact .inr (.inl ⟨r, v, hr, rfl⟩)
      | rd off size x =>
        simp only [hostStatement] at h
        rcases busRead_cases off size s with ⟨_, hb⟩ | ⟨_, _, hb⟩ | ⟨r, hr, _, _, hb⟩ <;> rw [hb] at h
        · cases h
        · cases h
        · cases h; exact .inr (.inr (.inl ⟨r, x, hr, rfl⟩))
      | bnz x mask target =>
        simp only [hostStatement] at h
        split at h <;> cases h
        · exact .inr (.inr (.inr (.inl ⟨s.host.pc + 1, rfl⟩)))
        · exact .inr (.inr (.inr (.inl ⟨target, rfl⟩)))
      | halt => cases h; exact .inr (.inr (.inr (.inr rfl)))

end Sys2Proof.Machine
end

