-- ==== Sys2Proof/Laws/PerInstr.lean ====
section
/-! SUPPORT. One lemma per command about its word: what 30_encoding.md R110 and R113 say of every command. -/

namespace Sys2Proof.Laws.CommandWord

/-- A command is well formed, its word has OP in bits [3:0] and zero in bits [31:4], it passes the static
check of a word, and it is below the reserved opcodes. -/
def Statement (i : Instr) : Prop :=
  i.wellFormed = true ∧ (encode i).extractLsb' 0 4 = opcode i ∧ (encode i).extractLsb' 4 28 = 0#28 ∧
    commandWordWf (encode i) = true ∧ (encode i).toNat < 9

theorem nop : Statement .nop := by unfold Statement; decide
theorem encode : Statement .encode := by unfold Statement; decide
theorem tencode : Statement .tencode := by unfold Statement; decide
theorem hmac : Statement .hmac := by unfold Statement; decide
theorem trunc : Statement .trunc := by unfold Statement; decide
theorem format : Statement .format := by unfold Statement; decide
theorem hotp : Statement .hotp := by unfold Statement; decide
theorem totp : Statement .totp := by unfold Statement; decide
theorem zeroize : Statement .zeroize := by unfold Statement; decide

end Sys2Proof.Laws.CommandWord
end

