-- ==== Sys2Proof/Laws/Safety.lean ====
section
/-! SUPPORT. What the terms of the claims give at once: the core at its reset values. -/

namespace Sys2Proof.Machine

/-- An edge of `rst` leaves the core at its reset values. -/
@[simp] theorem coreAtReset_resetCore (level : Bool) (s : State) : coreAtReset (resetCore level s) :=
  ⟨rfl, rfl, rfl, rfl, rfl⟩

/-- The interrupt is low at the reset values: it is masked. -/
theorem coreAtReset.irq_low {s : State} (h : coreAtReset s) : irq s = false := by
  simp only [irq, h.2.1]
  rfl

/-- The reset values are of the core's fields alone: the command word, the host, the schedule and the level of
`rst` may be others. -/
theorem coreAtReset.of_fields {s t : State} (h : coreAtReset s) (hb : t.busy = s.busy) (hi : t.irqEn = s.irqEn)
    (hst : t.status = s.status) (ho : t.ops = s.ops) (hr : t.res = s.res) : coreAtReset t :=
  ⟨hb.trans h.1, hi.trans h.2.1, hst.trans h.2.2.1, ho.trans h.2.2.2.1, hr.trans h.2.2.2.2⟩

end Sys2Proof.Machine
end

