-- ==== Sys2Proof/Laws/Step.lean ====
section
/-! SUPPORT. What the meanings and the step can do, said once. -/

namespace Sys2Proof.Machine

/-- The writes each successful command makes before its bookkeeping, and the checks they rest on
(30_encoding.md R112). -/
inductive Effect (s : State) : Instr → State → Prop where
  | nop : Effect s .nop s
  | encode : Effect s .encode (writeMessage (counterOf s) s)
  | tencode (c : DWord) : timeCounter (timestampOf s) s.ops.timeStep = .ok c →
      Effect s .tencode (writeMessage c s)
  | hmac (a : Alg) : selectAlg s.ops.alg = some a → keyLenBad s = false → s.status.msgValid = true →
      Effect s .hmac (writeDigest a (hmac a (secretOf s) (messageOf s)) s)
  | trunc : s.status.digestValid = true → Effect s .trunc (writeTrunc (dynamicTruncate (digestOf s)) s)
  | format : digitsOutOfBounds s = false → s.status.truncValid = true →
      Effect s .format (writeCode s.res.trunc s.ops.digits s)
  | hotp : digitsOutOfBounds s = false → keyLenBad s = false →
      Effect s .hotp (runPipeline .sha1 (counterOf s) s)
  | totp (a : Alg) (c : DWord) : digitsOutOfBounds s = false →
      timeCounter (timestampOf s) s.ops.timeStep = .ok c → selectAlg s.ops.alg = some a →
      keyLenBad s = false → Effect s .totp (runPipeline a c s)
  | zeroize : Effect s .zeroize (zeroizeData s)

/-- The error a timestamp or a step raises is an error. -/
theorem timeCounter_error {t : DWord} {s : Word} {e : ErrorCode} (h : timeCounter t s = .error e) :
    e ≠ .none := by
  rcases timeCounter_cases t s with ⟨_, h'⟩ | ⟨_, _, h'⟩ | ⟨_, _, h'⟩ <;> rw [h'] at h <;> cases h <;> decide

/-- Everything a command can do: raise an error with no write, or its effect, then the bookkeeping
(40_command_execution.md R143, R145). -/
theorem exec_cases (i : Instr) (s : State) :
    (∃ e, e ≠ .none ∧ exec i s = .next (finish e s)) ∨
    (∃ s', Effect s i s' ∧ exec i s = .next (finish .none s')) := by
  cases i with
  | nop => exact .inr ⟨s, .nop, rfl⟩
  | encode => exact .inr ⟨_, .encode, rfl⟩
  | zeroize => exact .inr ⟨_, .zeroize, rfl⟩
  | tencode =>
    simp only [exec, execTencode]
    cases h : timeCounter (timestampOf s) s.ops.timeStep with
    | error e => exact .inl ⟨e, timeCounter_error h, rfl⟩
    | ok c => exact .inr ⟨_, .tencode c h, rfl⟩
  | hmac =>
    simp only [exec, execHmac]
    cases ha : selectAlg s.ops.alg with
    | none => exact .inl ⟨_, by decide, rfl⟩
    | some a =>
      cases hk : keyLenBad s with
      | true => exact .inl ⟨_, by decide, rfl⟩
      | false =>
        cases hv : s.status.msgValid with
        | false => exact .inl ⟨_, by decide, rfl⟩
        | true => exact .inr ⟨_, .hmac a ha hk hv, rfl⟩
  | trunc =>
    simp only [exec, execTrunc]
    cases hv : s.status.digestValid with
    | false => exact .inl ⟨_, by decide, rfl⟩
    | true => exact .inr ⟨_, .trunc hv, rfl⟩
  | format =>
    simp only [exec, execFormat]
    cases hd : digitsOutOfBounds s with
    | true => exact .inl ⟨_, by decide, rfl⟩
    | false =>
      cases hv : s.status.truncValid with
      | false => exact .inl ⟨_, by decide, rfl⟩
      | true => exact .inr ⟨_, .format hd hv, rfl⟩
  | hotp =>
    simp only [exec, execHotp]
    cases hd : digitsOutOfBounds s with
    | true => exact .inl ⟨_, by decide, rfl⟩
    | false =>
      cases hk : keyLenBad s with
      | true => exact .inl ⟨_, by decide, rfl⟩
      | false => exact .inr ⟨_, .hotp hd hk, rfl⟩
  | totp =>
    simp only [exec, execTotp]
    cases hd : digitsOutOfBounds s with
    | true => exact .inl ⟨_, by decide, rfl⟩
    | false =>
      cases h : timeCounter (timestampOf s) s.ops.timeStep with
      | error e => exact .inl ⟨e, timeCounter_error h, rfl⟩
      | ok c =>
        cases ha : selectAlg s.ops.alg with
        | none => exact .inl ⟨_, by decide, rfl⟩
        | some a =>
          cases hk : keyLenBad s with
          | true => exact .inl ⟨_, by decide, rfl⟩
          | false => exact .inr ⟨_, .totp a c hd h ha hk, rfl⟩

/-- No effect touches the sequencer, the interrupt enable, the reset input, the host or the schedule. -/
theorem Effect.keeps {s s' : State} {i : Instr} (h : Effect s i s') :
    s'.irqEn = s.irqEn ∧ s'.busy = s.busy ∧ s'.cmd = s.cmd ∧ s'.rst = s.rst ∧ s'.host = s.host ∧
      s'.turns = s.turns := by
  cases h <;> simp

/-- Everything a turn that goes on can do. -/
theorem takeTurn_next_cases {turn : Turn} {s t : State} (h : takeTurn turn s = .next t) :
    (turn = .host ∧ hostTurn s = .next t) ∨
    (turn = .core ∧ s.busy = true ∧ s.rst = false ∧ completion s = .next t) ∨
    (turn = .core ∧ (s.busy = false ∨ s.rst = true) ∧ t = s) ∨
    (turn = .assertRst ∧ t = resetCore true s) ∨
    (turn = .releaseRst ∧ s.rst = true ∧ t = resetCore false s) ∨
    (turn = .releaseRst ∧ s.rst = false ∧ t = s) := by
  cases turn with
  | host => exact .inl ⟨rfl, h⟩
  | core =>
    simp only [takeTurn, coreTurn] at h
    split at h
    · rename_i hb
      simp only [Bool.and_eq_true, Bool.not_eq_true'] at hb
      exact .inr (.inl ⟨rfl, hb.1, hb.2, h⟩)
    · rename_i hb
      cases h
      refine .inr (.inr (.inl ⟨rfl, ?_, rfl⟩))
      cases h1 : s.busy <;> cases h2 : s.rst <;> simp_all
  | assertRst => cases h; exact .inr (.inr (.inr (.inl ⟨rfl, rfl⟩)))
  | releaseRst =>
    simp only [takeTurn, resetTurn] at h
    cases hr : s.rst <;> simp only [hr, Bool.or_self, Bool.false_or, Bool.false_eq_true, if_true, if_false] at h
    · cases h; exact .inr (.inr (.inr (.inr (.inr ⟨rfl, rfl, rfl⟩))))
    · cases h; exact .inr (.inr (.inr (.inr (.inl ⟨rfl, rfl, rfl⟩))))

/-- Everything a completion can do: an error code recorded, or an effect, each with the bookkeeping. -/
theorem completion_cases (s : State) :
    (∃ e, e ≠ .none ∧ completion s = .next (finish e s)) ∨
    (∃ i s', decode s.cmd = some i ∧ Effect s i s' ∧ completion s = .next (finish .none s')) := by
  simp only [completion]
  split
  · rename_i i hi
    rcases exec_cases i s with h | ⟨s', he, h⟩
    · exact .inl h
    · exact .inr ⟨i, s', hi, he, h⟩
  · exact .inl ⟨.illegalCmd, by decide, rfl⟩

/-- A step of a schedule that is not at its end is the turn it names. -/
theorem step_turn {s : State} {turn : Turn} {rest : List Turn} (h : s.turns = turn :: rest) :
    step s = takeTurn turn { s with turns := rest } := by
  simp only [step, h]

/-- A step is a turn: the schedule's next one, or the default one when the schedule is at its end. -/
theorem step_eq_takeTurn (s : State) :
    ∃ turn rest, step s = takeTurn turn { s with turns := rest } ∧
      (s.turns = turn :: rest ∨ (s.turns = [] ∧ rest = [] ∧ turn = defaultTurn s)) := by
  cases hs : s.turns with
  | nil =>
    refine ⟨defaultTurn s, [], ?_, .inr ⟨rfl, rfl, rfl⟩⟩
    have : { s with turns := [] } = s := by cases s; simp_all
    rw [this]
    simp only [step, hs]
  | cons turn rest => exact ⟨turn, rest, by simp only [step, hs], .inl rfl⟩

end Sys2Proof.Machine
end

