-- ==== Sys2Proof/Tests/Slice0.lean ====
section
/-! SUPPORT. Own tests: the words of the commands written out bit by bit, one ill-formed term for each
static check, one step per command on the vectors of 95_test_vectors.md (their numbers stand in the
names), and for every obligation with hypotheses a state and operands that meet them together. -/

namespace Sys2Proof.Tests

open Sys2Proof Sys2Proof.Machine

/-! ## Small states -/

/-- "secretkey". -/
def secretKey : List Byte := [0x73#8, 0x65#8, 0x63#8, 0x72#8, 0x65#8, 0x74#8, 0x6B#8, 0x65#8, 0x79#8]

/-- The state after reset with a secret of n bytes in the key buffer, a counter, DIGITS and ALG. -/
def keyed (secret : List Byte) (n c d a : Nat) : State :=
  { State.reset with ops := { Operands.reset with
      key := fillBuffer 128 secret
      keyLen := BitVec.ofNat 8 n
      counterHi := BitVec.ofNat 32 (c / 2 ^ 32)
      counterLo := BitVec.ofNat 32 c
      digits := BitVec.ofNat 4 d
      alg := BitVec.ofNat 2 a } }

/-- The state after reset with a timestamp, a step, DIGITS, ALG and KEYLEN. -/
def timed (t s d a n : Nat) : State :=
  { State.reset with ops := { Operands.reset with
      timeHi := BitVec.ofNat 32 (t / 2 ^ 32)
      timeLo := BitVec.ofNat 32 t
      timeStep := BitVec.ofNat 32 s
      digits := BitVec.ofNat 4 d
      alg := BitVec.ofNat 2 a
      keyLen := BitVec.ofNat 8 n } }

/-- -1 as a 64-bit pattern. -/
def minusOne : Nat := 2 ^ 64 - 1

/-- A state with a message of zeros marked valid. -/
def withMessage (s : State) : State := { s with status := { s.status with msgValid := true } }

/-- A state with a digest in place. -/
def withDigest (n : Nat) (d : List Byte) (s : State) : State :=
  { withMessage s with
    res := { s.res with dig := fillBuffer 32 d, digestLen := BitVec.ofNat 8 n }
    status := { (withMessage s).status with digestValid := true } }

/-- A state with a truncated value in place. -/
def withTrunc (v : Nat) (s : State) : State :=
  { withDigest 20 [] s with
    res := { (withDigest 20 [] s).res with trunc := BitVec.ofNat 31 v }
    status := { (withDigest 20 [] s).status with truncValid := true } }

/-- A command word in progress. -/
def running (w : Word) (s : State) : State := { s with cmd := w, busy := true }

/-- The core under reset. -/
def held : State := { State.reset with rst := true }

/-- A schedule for the next steps. -/
def scheduled (ts : List Turn) (s : State) : State := { s with turns := ts }

/-- A host program about to run its first statement. -/
def hosting (p : List Stmt) (s : State) : State := { s with host := { HostAgent.empty with prog := p } }

/-- A field of the next state an outcome gives. -/
def nextField {α : Type} (f : State → α) : Outcome → Option α
  | .next s => some (f s)
  | .fault _ => none
  | .refused _ => none

/-- The fault an outcome gives. -/
def faultOf : Outcome → Option Fault
  | .next _ => none
  | .fault f => some f
  | .refused _ => none

/-- A command issued and completed, and one register or field after it. -/
def issued {α : Type} (i : Instr) (s : State) (f : State → α) : Option α := nextField f (issue i s)

/-- A register after a write to another, none if the window does not admit the write. -/
def writeThenRead (w : Reg) (v : Word) (r : Reg) (s : State) : Option Word :=
  match busWrite w.offset 32 v s with
  | .ok t => some (readReg r t)
  | .error _ => none

/-- "secretkey" HMAC-SHA1 of the counter 0 (vector S1). -/
def digestS1 : List Byte :=
  [0xc8#8, 0xba#8, 0x78#8, 0xdf#8, 0xf9#8, 0x22#8, 0xc0#8, 0x04#8, 0xb1#8, 0x65#8, 0xb0#8, 0x7c#8, 0xa2#8,
    0x94#8, 0xd4#8, 0x18#8, 0x8e#8, 0x12#8, 0xa9#8, 0x56#8]

/-! ## Words written out from 30_encoding.md R110, R113 -/

theorem test_word_nop : decode 0b00000000000000000000000000000000#32 = some .nop := by decide
theorem test_word_encode : decode 0b00000000000000000000000000000001#32 = some .encode := by decide
theorem test_word_tencode : decode 0b00000000000000000000000000000010#32 = some .tencode := by decide
theorem test_word_hmac : decode 0b00000000000000000000000000000011#32 = some .hmac := by decide
theorem test_word_trunc : decode 0b00000000000000000000000000000100#32 = some .trunc := by decide
theorem test_word_format : decode 0b00000000000000000000000000000101#32 = some .format := by decide
theorem test_word_hotp : decode 0b00000000000000000000000000000110#32 = some .hotp := by decide
theorem test_word_totp : decode 0b00000000000000000000000000000111#32 = some .totp := by decide
theorem test_word_zeroize : decode 0b00000000000000000000000000001000#32 = some .zeroize := by decide

/-- Words W1 to W5: reserved opcodes, and a reserved bit beside the opcode of HOTP. -/
theorem test_word_illegal :
    decodeWord 0x00000009#32 = .reservedOpcode ∧ decodeWord 0x0000000F#32 = .reservedOpcode ∧
      decodeWord 0x00000010#32 = .reservedBits ∧ decodeWord 0x80000006#32 = .reservedBits := by decide

theorem test_table_word : decodeTableWord 32 6 = some .hotp ∧ decodeTableWord 64 (2 ^ 32) = none := by
  decide

/-! ## Static checks, each refusing an ill-formed term -/

theorem test_wf_word_reserved_bits : commandWordWf 0x00000016#32 = false := by decide
theorem test_wf_word_reserved_opcode : commandWordWf 0x00000009#32 = false := by decide
theorem test_wf_access_width : accessWf 0x00C 16 = false ∧ accessWf 0x00C 64 = false := by decide
theorem test_wf_access_alignment : accessWf 0x00E 32 = false := by decide
theorem test_wf_access_reserved : accessWf 0x050 32 = false ∧ accessWf 0x180 32 = false := by decide
theorem test_wf_stmt_access : Stmt.wellFormed 1 (.wr 0x0FC 32 0#32) = false ∧
    Stmt.wellFormed 1 (.rd 0x014 8 0) = false := by decide
theorem test_wf_stmt_target : Stmt.wellFormed 3 (.bnz 0 1#32 3) = false := by decide
theorem test_wf_line_label : programWf [.label 1, .bnz 0 1#32 2] = false := by decide
theorem test_wf_label_twice : programWf [.label 1, .halt, .label 1] = false := by decide
theorem test_wf_key_too_long : programWf [.key (List.replicate 129 0xAA#8)] = false := by decide +kernel
theorem test_wf_instr : Instr.wellFormed .totp = true ∧ commandWordWf (encode .totp) = true := by decide

/-! ## One command each, on the spec's vectors -/

/-- N2: a NOP keeps ERR. -/
theorem test_nop_keeps_err :
    issued .nop { State.reset with status := { Status.reset with done := true, err := true, lastOp := 4#4 } }
      statusWord = some 0x00000006#32 := by decide

/-- E3. -/
theorem test_encode_E3 :
    issued .encode (keyed [] 0 0x0102030405060708 6 0) (fun t => (readReg .msgHi t, readReg .msgLo t)) =
      some (0x01020304#32, 0x05060708#32) := by decide

/-- E6: ENCODE reads no CFG field. -/
theorem test_encode_E6 : issued .encode (keyed [] 0 0 15 3) statusWord = some 0x00011002#32 := by decide

/-- T10. -/
theorem test_tencode_T10 :
    issued .tencode (timed (2 ^ 63 - 1) 0xFFFFFFFF 6 0 0) (fun t => (readReg .msgHi t, readReg .msgLo t)) =
      some (0x00000000#32, 0x80000000#32) := by decide +kernel

/-- T12b: a negative timestamp is reported before a zero step. -/
theorem test_tencode_T12b : issued .tencode (timed minusOne 0 6 0 0) statusWord = some 0x00002606#32 := by
  decide

/-- M1: HMAC-SHA256, its first and last words. -/
theorem test_hmac_M1 :
    issued .hmac (withMessage (keyed secretKey 9 0 6 1))
      (fun t => (readReg (.digest 0) t, readReg (.digest 7) t, readReg .dlen t)) =
      some (0x1b3777bc#32, 0xbb9cd577#32, 0x20#32) := by decide +kernel

/-- M13: an unknown algorithm is reported before a bad key length. -/
theorem test_hmac_M13 :
    issued .hmac (withMessage (keyed [] 200 0 6 2)) statusWord = some 0x00013206#32 := by decide

/-- R5: the first window byte loses its top bit. -/
theorem test_trunc_R5 :
    issued .trunc (withDigest 20 digestS1 State.reset) (readReg .trunc) = some 0x4004B165#32 := by decide

/-- R7. -/
theorem test_trunc_R7 : issued .trunc State.reset statusWord = some 0x00004706#32 := by decide

/-- F15: seven digits, and the fill after them. -/
theorem test_format_F15 :
    issued .format (withTrunc 1074049381 (keyed [] 0 0 7 0))
      (fun t => (readReg .code t, readReg .codeStr0 t, readReg .codeStr1 t, readReg .codeLen t)) =
      some (0x003DC9E5#32, 0x34303439#32, 0x33383100#32, 7#32) := by decide +kernel

/-- F19: OUT_OF_BOUNDS before SEQUENCE. -/
theorem test_format_F19 : issued .format (keyed [] 0 0 9 0) statusWord = some 0x00005106#32 := by decide

/-- S2, with ALG 3, which HOTP does not read (H5). -/
theorem test_hotp_S2 :
    issued .hotp (keyed secretKey 9 1 6 3) (fun t => (readReg .trunc t, readReg .code t, statusWord t)) =
      some (0x03219E17#32, 0x00082917#32, 0x000F6002#32) := by decide +kernel

/-- X3: OUT_OF_BOUNDS before BAD_KEYLEN. -/
theorem test_hotp_X3 : issued .hotp (keyed [] 129 0 9 0) statusWord = some 0x00006106#32 := by decide

/-- T15: T = 60 under the step 30 gives the code of the counter 2 (S3). -/
theorem test_totp_T15 :
    issued .totp { timed 60 30 6 0 9 with ops := { (timed 60 30 6 0 9).ops with key := fillBuffer 128 secretKey } }
      (fun t => (readReg .msgLo t, readReg .code t)) = some (2#32, 155320#32) := by decide +kernel

/-- X7: BAD_STEP before UNSUPPORTED_ALGORITHM and BAD_KEYLEN. -/
theorem test_totp_X7 : issued .totp (timed 100 0 6 2 200) statusWord = some 0x00007506#32 := by decide

/-- Z1: the counter, CFG and STEP are kept, the flags are not. -/
theorem test_zeroize_Z1 :
    issued .zeroize (withTrunc 7 (keyed secretKey 9 1 6 0))
      (fun t => (statusWord t, readReg .trunc t, readReg .keyLen t, readReg .counterLo t, readReg .cfg t)) =
      some (0x00008002#32, 0#32, 0#32, 1#32, 6#32) := by decide

/-- Z1: no key byte is left. -/
theorem test_zeroize_key :
    issued .zeroize (keyed secretKey 9 1 6 0) (fun t => t.ops.key.toList.all (· == 0#8)) = some true := by
  decide +kernel

/-! ## Words, registers, hazards, reset -/

/-- W5: a reserved bit beside the opcode of HOTP; LASTOP is the word's low bits. -/
theorem test_illegal_W5 :
    nextField statusWord (step (running 0x80000006#32 State.reset)) = some 0x00006306#32 := by decide

theorem test_B2_cfg : writeThenRead .cfg 0xFFFFFFFF#32 .cfg State.reset = some 0x0000003F#32 := by decide
theorem test_B3_keylen : writeThenRead .keyLen 0x1FF#32 .keyLen State.reset = some 0x000000FF#32 := by decide
theorem test_B4_ctrl : writeThenRead .ctrl 0xFFFFFFFF#32 .ctrl State.reset = some 0x00000001#32 := by decide
theorem test_B1_id : writeThenRead .id 0x12345678#32 .id State.reset = some 0x4F545031#32 := by decide

/-- B5: the key is packed big-endian and does not read back. -/
theorem test_B5_key :
    writeThenRead (.key 0) 0xDEADBEEF#32 (.key 0) State.reset = some 0#32 ∧
      (setWordAt (Vector.replicate 128 0#8) 31 0xDEADBEEF#32).toList.drop 124 =
        [0xDE#8, 0xAD#8, 0xBE#8, 0xEF#8] := by decide +kernel

/-- B8: DONE cleared, ERR kept. -/
theorem test_B8_w1c :
    writeThenRead .status 0x2#32 .status
      { withTrunc 0 State.reset with status := { Status.reset with done := true, err := true, lastOp := 6#4 } } =
      some 0x00006004#32 := by decide

/-- B9, B10, B11. -/
theorem test_bus_errors :
    ∀ off ∈ [0x001, 0x002, 0x050, 0x05C, 0x080, 0x0FC, 0x180, 0x1FC, 0x200],
      faultOf (step (hosting [.rd off 32 0] State.reset)) = some .busError := by decide +kernel

/-- K1: a CMD write while busy is ignored and sets WIGN. -/
theorem test_K1_busy :
    writeThenRead .cmd 0x6#32 .status (running 0#32 State.reset) = some 0x00000009#32 := by decide

/-- N3, N4: the interrupt. -/
theorem test_irq :
    issued .nop { State.reset with irqEn := true } irq = some true ∧ issued .nop State.reset irq = some false := by
  decide

/-- R300: a command in progress is abandoned by a reset. -/
theorem test_reset_abandons :
    nextField statusWord (step (scheduled [.assertRst] (running 6#32 (withTrunc 1 State.reset)))) =
      some 0#32 := by decide

/-- R303. -/
theorem test_access_in_reset :
    faultOf (step (hosting [.rd 0x010 32 0] held)) = some .accessInReset := by decide

/-! ## Host programs -/

/-- The bus transactions of P1's first lines, as R124 and R125 give them. -/
theorem test_program_P1 :
    (assemble [.clr, .key secretKey, .counter 1#64, .cmd .hotp, .wait, .rd 0x040 1, .halt]).map encodeProgram =
      some [.w 0x010 0x0000000E#32, .w 0x100 0x73656372#32, .w 0x104 0x65746B65#32, .w 0x108 0x79000000#32,
        .w 0x01C 9#32, .w 0x020 0#32, .w 0x024 1#32, .w 0x00C 6#32, .r 0x010, .r 0x040] := by decide +kernel

/-- A label in front of a statement, and `wait`'s loop back to its own read. -/
theorem test_program_labels :
    assemble [.cfg 8#32 1#32, .label 7, .wait, .bnz 3 0x4#32 7, .halt] =
      some [.wr 0x014 32 0x18#32, .rd 0x010 32 0, .bnz 0 1#32 1, .bnz 3 0x4#32 1, .halt] := by decide +kernel

/-! ## States that meet the hypotheses of the obligations -/

theorem witness_DecodeEncodeAgree : Instr.wellFormed .hotp = true ∧ decode 0x3#32 = some .hmac := by decide

theorem witness_OpcodeMapWords : 9 ≤ (0x00000009#32 : Word).toNat ∧ 9 ≤ (0xFFFFFFFF#32 : Word).toNat := by
  decide

theorem witness_IllegalWord :
    (∃ (w : Word) (s : State), BitVec.extractLsb' 4 28 w ≠ 0#28 ∧ s.busy = false ∧ s.rst = false ∧ s.turns = [.core, .host]) ∧
    (∃ (w : Word) (s : State), 9 ≤ (w.extractLsb' 0 4).toNat ∧ s.busy = false ∧ s.rst = false ∧
      s.turns = [.core]) :=
  ⟨⟨0x10#32, scheduled [.core, .host] State.reset, by decide, rfl, rfl, rfl⟩,
    ⟨0x9#32, scheduled [.core] State.reset, by decide, rfl, rfl, rfl⟩⟩

theorem witness_StepRunsTheDecodedCommand :
    (∃ s : State, decode s.cmd = some .hotp ∧ s.busy = true ∧ s.rst = false ∧ s.turns = []) ∧
    (∃ s : State, decode s.cmd = some .nop ∧ s.busy = true ∧ s.rst = false ∧ s.turns = [.core, .host]) ∧
    decodeTableWord 32 8 = some .zeroize :=
  ⟨⟨running 6#32 State.reset, by decide, rfl, rfl, rfl⟩,
    ⟨scheduled [.core, .host] (running 0#32 State.reset), by decide, rfl, rfl, rfl⟩, by decide⟩

theorem witness_CounterBytesAreBigEndian : (0 : Nat) < 8 ∧ (7 : Nat) < 8 := by decide

theorem witness_TimeCounter :
    (0xFFFFFFFFFFFFFFFF#64 : DWord).toInt < 0 ∧
    (0 ≤ (0#64 : DWord).toInt ∧ (0#32 : Word).toNat = 0) ∧
    (0 ≤ (0x7FFFFFFFFFFFFFFF#64 : DWord).toInt ∧ (1#32 : Word).toNat ≠ 0) := by decide +kernel

theorem witness_Tencode :
    (∃ s : State, s.ops.timeHi.getLsbD 31 = false ∧ s.ops.timeStep ≠ 0#32) ∧
    (∃ s : State, s.ops.timeHi.getLsbD 31 = true) ∧
    (∃ s : State, s.ops.timeHi.getLsbD 31 = false ∧ s.ops.timeStep = 0#32) :=
  ⟨⟨timed (2 ^ 63 - 1) 1 6 0 0, by decide +kernel⟩, ⟨timed (2 ^ 63) 30 6 0 0, by decide +kernel⟩,
    ⟨timed 5 0 6 0 0, by decide +kernel⟩⟩

theorem witness_Hmac :
    (∃ s : State, s.ops.alg = 0#2 ∧ s.ops.keyLen.toNat ≤ 128 ∧ s.status.msgValid = true) ∧
    (∃ s : State, s.ops.alg = 1#2 ∧ s.ops.keyLen.toNat ≤ 128 ∧ s.status.msgValid = true) ∧
    (∃ s : State, s.ops.alg = 2#2 ∨ s.ops.alg = 3#2) ∧
    (∃ s : State, (s.ops.alg = 0#2 ∨ s.ops.alg = 1#2) ∧ 128 < s.ops.keyLen.toNat) ∧
    (∃ s : State, (s.ops.alg = 0#2 ∨ s.ops.alg = 1#2) ∧ s.ops.keyLen.toNat ≤ 128 ∧ s.status.msgValid = false) :=
  ⟨⟨withMessage (keyed [] 128 0 6 0), by decide⟩, ⟨withMessage (keyed [] 0 0 6 1), by decide⟩,
    ⟨keyed [] 0 0 6 2, by decide⟩, ⟨keyed [] 129 0 6 1, by decide⟩, ⟨State.reset, by decide⟩⟩

theorem witness_Trunc :
    (∃ s : State, s.status.digestValid = true) ∧ (∃ s : State, s.status.digestValid = false) :=
  ⟨⟨withDigest 20 digestS1 State.reset, rfl⟩, ⟨State.reset, rfl⟩⟩

theorem witness_DynamicTruncation :
    digestS1.length = 20 ∧ (digestS1 ++ List.replicate 12 0xFF#8).length = 32 := by decide

theorem witness_FormatDigits :
    ∀ d ∈ [6, 7, 8], (d = 6 ∨ d = 7 ∨ d = 8) ∧ (0 < d ∧ d - 1 < d) ∧ (d ≤ 7 → d ≤ d ∧ d < 8) := by decide

/-- Of FORMAT, HOTP and TOTP: every legal DIGITS, and both sides of the range. -/
theorem witness_Digits :
    (∀ d ∈ [6, 7, 8], ∃ s : State, s.status.truncValid = true ∧ s.ops.digits.toNat = d ∧
      (s.ops.digits = 6#4 ∨ s.ops.digits = 7#4 ∨ s.ops.digits = 8#4)) ∧
    (∃ s : State, s.ops.digits.toNat < 6) ∧ (∃ s : State, 8 < s.ops.digits.toNat) ∧
    (∃ s : State, (s.ops.digits = 6#4 ∨ s.ops.digits = 7#4 ∨ s.ops.digits = 8#4) ∧ s.status.truncValid = false) := by
  refine ⟨fun d hd => ⟨withTrunc 1 (keyed [] 0 0 d 0), ?_⟩, ⟨keyed [] 0 0 5 0, by decide⟩,
    ⟨keyed [] 0 0 9 0, by decide⟩, ⟨State.reset, by decide⟩⟩
  revert d hd
  decide

theorem witness_Hotp :
    (∃ s : State, s.ops.digits = 8#4 ∧ s.ops.keyLen.toNat ≤ 128) ∧ (∃ s : State, s.ops.digits = 6#4 ∧ 128 < s.ops.keyLen.toNat) :=
  ⟨⟨keyed [] 128 0 8 0, by decide⟩, ⟨keyed [] 129 0 6 0, by decide⟩⟩

theorem witness_Totp :
    (∃ s : State, s.ops.digits = 7#4 ∧ s.ops.timeHi.getLsbD 31 = false ∧ s.ops.timeStep ≠ 0#32 ∧ s.ops.alg = 1#2 ∧
      s.ops.keyLen.toNat ≤ 128) ∧
    (∃ s : State, 6 ≤ s.ops.digits.toNat ∧ s.ops.digits.toNat ≤ 8 ∧ s.ops.timeHi.getLsbD 31 = true) ∧
    (∃ s : State, 6 ≤ s.ops.digits.toNat ∧ s.ops.digits.toNat ≤ 8 ∧ s.ops.timeHi.getLsbD 31 = false ∧
      s.ops.timeStep = 0#32) ∧
    (∃ s : State, 6 ≤ s.ops.digits.toNat ∧ s.ops.digits.toNat ≤ 8 ∧ s.ops.timeHi.getLsbD 31 = false ∧
      s.ops.timeStep ≠ 0#32 ∧ (s.ops.alg = 2#2 ∨ s.ops.alg = 3#2)) ∧
    (∃ s : State, 6 ≤ s.ops.digits.toNat ∧ s.ops.digits.toNat ≤ 8 ∧ s.ops.timeHi.getLsbD 31 = false ∧
      s.ops.timeStep ≠ 0#32 ∧ (s.ops.alg = 0#2 ∨ s.ops.alg = 1#2) ∧ 128 < s.ops.keyLen.toNat) :=
  ⟨⟨timed 59 30 7 1 128, by decide⟩, ⟨timed minusOne 30 6 0 0, by decide⟩, ⟨timed 100 0 8 2 200, by decide⟩,
    ⟨timed 100 30 6 3 200, by decide⟩, ⟨timed 100 30 6 0 129, by decide⟩⟩

/-- Of CodeStringSpellsCode: FORMAT, HOTP and TOTP, each ending without an error. -/
theorem witness_CodeString :
    nextField (fun t => t.status.errCode) (exec .format (withTrunc 7 State.reset)) = some .none ∧
    nextField (fun t => t.status.errCode) (exec .hotp State.reset) = some .none ∧
    nextField (fun t => t.status.errCode) (exec .totp State.reset) = some .none := by decide +kernel

/-- Of the two staged sequences and of idempotence: a success under ALG 3 for HOTP, under ALG 1 for TOTP, and
two timestamps of one step window (T18). -/
theorem witness_Staged :
    issued .hotp (keyed secretKey 9 0 6 3) (fun t => t.status.errCode) = some .none ∧
    issued .totp (timed 59 30 8 1 0) (fun t => t.status.errCode) = some .none ∧
    ((0#32 : Word).getLsbD 31 = false ∧ (0 * 2 ^ 32 + 1587915779) / 30 = (0 * 2 ^ 32 + 1587915750) / 30) := by
  decide +kernel

theorem witness_CompletionBookkeeping :
    (∃ (s : State) (o : Outcome), o = exec .trunc s ∧ reportedError .trunc s = .sequence) ∧
    (∃ (s : State) (o : Outcome), o = completion s ∧ decode s.cmd = none) :=
  ⟨⟨State.reset, _, rfl, by decide⟩, ⟨running 0xF#32 State.reset, _, rfl, by decide⟩⟩

/-- Of ErrorReportChangesOnlyStatus, ErrorsRepeat and ErrorPriority. -/
theorem witness_Errors :
    nextField (fun t => t.status.errCode) (exec .trunc State.reset) = some .sequence ∧
    nextField (fun t => t.status.errCode) (completion (running 0x10#32 State.reset)) = some .illegalCmd ∧
    (let s' := { State.reset with irqEn := true, busy := true }
     s'.ops = State.reset.ops ∧ s'.status.msgValid = State.reset.status.msgValid ∧
      s'.status.digestValid = State.reset.status.digestValid ∧
      s'.status.truncValid = State.reset.status.truncValid) := by decide +kernel

/-- Of ValidFlagsChangeOnlyAsNamed: each flag set, and one cleared in each of the three ways. -/
theorem witness_ValidFlags :
    nextField (fun t => t.status.msgValid) (step (running 1#32 State.reset)) = some true ∧
    nextField (fun t => t.status.digestValid) (step (running 3#32 (withMessage State.reset))) = some true ∧
    nextField (fun t => t.status.truncValid) (step (running 4#32 (withDigest 20 [] State.reset))) = some true ∧
    nextField (fun t => t.status.codeValid) (step (running 5#32 (withTrunc 0 State.reset))) = some true ∧
    nextField (fun t => t.status.msgValid) (step (running 8#32 (withMessage State.reset))) = some false ∧
    nextField (fun t => t.status.msgValid) (step (scheduled [.assertRst] (withMessage State.reset))) =
      some false ∧
    nextField (fun t => t.status.msgValid) (step (scheduled [.releaseRst] (withMessage held))) =
      some false := by decide +kernel

theorem witness_CommandsKeepOperands :
    (∃ t, exec .encode State.reset = .next t) ∧ (∃ t, exec .zeroize State.reset = .next t) :=
  ⟨⟨_, rfl⟩, ⟨_, rfl⟩⟩

theorem witness_HostTurn :
    (∃ (s s' : State) (v : Word), s.turns = [.host] ∧ s.host.halted = false ∧ s.host.prog[s.host.pc]? = some (.wr 0x014 32 v) ∧
      busWrite 0x014 32 v { s with turns := [] } = .ok s') ∧
    (∃ (s : State) (v : Word), s.turns = [.host] ∧ s.host.halted = false ∧ s.host.prog[s.host.pc]? = some (.rd 0x018 32 2) ∧
      busRead 0x018 32 s = .ok v) ∧
    (∃ s : State, s.turns = [.host] ∧ s.host.halted = false ∧ s.host.prog[s.host.pc]? = some (.bnz 0 1#32 0)) ∧
    (∃ s : State, s.turns = [.host] ∧ s.host.halted = false ∧ s.host.prog[s.host.pc]? = some .halt) ∧
    (∃ s : State, s.turns = [.host] ∧ s.host.halted = true) :=
  ⟨⟨scheduled [.host] (hosting [.wr 0x014 32 8#32] State.reset), _, 8#32, rfl, rfl, rfl, rfl⟩,
    ⟨scheduled [.host] (hosting [.rd 0x018 32 2] State.reset), _, rfl, rfl, rfl, rfl⟩,
    ⟨scheduled [.host] (hosting [.bnz 0 1#32 0] State.reset), rfl, rfl, rfl⟩,
    ⟨scheduled [.host] (hosting [.halt] State.reset), rfl, rfl, rfl⟩,
    ⟨scheduled [.host] { State.reset with host := { HostAgent.empty with halted := true } }, rfl, rfl⟩⟩

theorem witness_PseudoStatements :
    (List.replicate 128 0xAA#8).length ≤ 128 ∧ ([] : List Byte).length ≤ 128 := by
  rw [List.length_replicate]; decide

/-- Of UnadmittedAccessFaults: a read for each way an access is not admitted, and a write. -/
theorem witness_UnadmittedAccess :
    (∀ p ∈ [(0x010, 16), (0x011, 32), (0x050, 32), (0x05C, 32), (0x080, 32), (0x0FC, 32), (0x180, 32), (0x1FC, 32)],
      p.1 < 0x200 ∧ (p.2 ≠ 32 ∨ p.1 % 4 ≠ 0 ∨ (0x050 ≤ p.1 ∧ p.1 < 0x060) ∨ (0x080 ≤ p.1 ∧ p.1 < 0x100) ∨ 0x180 ≤ p.1)) ∧
    ∀ st : Stmt, ∃ s : State, s.turns = [.host] ∧ s.rst = false ∧ s.host.halted = false ∧
      s.host.prog[s.host.pc]? = some st :=
  ⟨by decide, fun st => ⟨scheduled [.host] (hosting [st] State.reset), rfl, rfl, rfl, rfl⟩⟩

theorem witness_AccessUnderReset :
    ∃ s : State, s.turns = [.host] ∧ s.rst = true ∧ s.host.halted = false ∧
      s.host.prog[s.host.pc]? = some (.wr 0x00C 32 6#32) :=
  ⟨scheduled [.host] (hosting [.wr 0x00C 32 6#32] held), rfl, rfl, rfl, rfl⟩

/-- Of the statements about an idle or a busy core out of reset. -/
theorem witness_Window :
    (State.reset.rst = false ∧ State.reset.busy = false) ∧
    (∃ s : State, s.rst = false ∧ s.busy = true) ∧
    (Reg.codeLen ∈ [Reg.id, .param, .msgHi, .msgLo, .dlen, .trunc, .code, .codeStr0, .codeStr1, .codeLen]) ∧
    isOperandOrCmd (.key 31) = true ∧ (0x2#32 : Word).getLsbD 1 = true ∧ (0x2#32 : Word).getLsbD 0 = false :=
  ⟨⟨rfl, rfl⟩, ⟨running 0#32 State.reset, rfl, rfl⟩, by decide, rfl, by decide, by decide⟩

/-- Of OperandsHeldUntilCompletion: two host writes land while HOTP is in progress (P4). -/
theorem witness_OperandsHeld :
    ∃ s t : State, s.busy = true ∧ s.rst = false ∧ s.turns = List.replicate 2 .host ++ [.core] ∧
      Sys2Proof.core.run 2 s = .next t ∧ t.status.wign = true :=
  ⟨scheduled [.host, .host, .core]
      (hosting [.wr 0x020 32 0#32, .wr 0x024 32 1#32] (running 6#32 (keyed secretKey 9 0 6 0))),
    _, rfl, rfl, rfl, rfl, by decide⟩

/-- Of OnlyWritesCompletionsAndResetChangeTheCore: a step that changes the core. -/
theorem witness_CoreChanges :
    ∃ s t : State, step s = .next t ∧ ¬ sameCore s t :=
  ⟨running 0#32 State.reset, _, rfl, by unfold sameCore; decide⟩

/-- Of BusAddressesReachTheWindow, the last clause: the first address past the window. -/
theorem witness_OutsideWindow :
    State.reset.rst = false ∧
      ((Config.otpBase + 0x200 < Config.otpBase) ∨ Config.otpBase + 0x200 ≤ Config.otpBase + 0x200) :=
  ⟨rfl, .inr (Nat.le_refl _)⟩

theorem witness_KeyHidden :
    ∃ t, hostTurn (hosting [.wr 0x100 32 1#32] State.reset) = .next t := ⟨_, rfl⟩

/-- Of KeyBytesPastKeylenUnread: a buffer that differs from index 1 on, KEYLEN 1. -/
theorem witness_KeyBytesPast :
    ∃ (s t : State) (key : Vector Byte 128),
      (∀ j, j < s.ops.keyLen.toNat → byteAt key j = byteAt s.ops.key j) ∧ key ≠ s.ops.key ∧
      exec .nop s = .next t := by
  refine ⟨keyed secretKey 1 0 6 0, _, fillBuffer 128 [0x73#8], ?_, by decide +kernel, rfl⟩
  intro j hj
  have h0 : j = 0 := by
    have : (keyed secretKey 1 0 6 0).ops.keyLen.toNat = 1 := rfl
    omega
  subst h0
  decide

theorem witness_IdleCommandWord :
    ∃ s t : State, s.busy = false ∧ step s = .next t ∧ t.busy = true :=
  ⟨hosting [.wr 0x00C 32 6#32] State.reset, _, rfl, rfl, rfl⟩

theorem witness_Reset :
    (∃ s : State, s.turns = [.assertRst] ∧ s.busy = true) ∧
    (∃ s t : State, s.rst = true ∧ coreAtReset s ∧ step s = .next t) ∧
    (∃ s : State, s.turns = [.releaseRst, .host] ∧ s.rst = true) ∧
    (∃ s : State, s.turns = [.core] ∧ s.rst = true) :=
  ⟨⟨scheduled [.assertRst] (running 6#32 State.reset), rfl, rfl⟩,
    ⟨held, _, rfl, ⟨rfl, rfl, rfl, rfl, rfl⟩, rfl⟩,
    ⟨scheduled [.releaseRst, .host] held, rfl, rfl⟩, ⟨scheduled [.core] held, rfl, rfl⟩⟩

/-- Of StepKeepsInvariant: the core under reset meets the invariant, and it takes a step. -/
theorem witness_InvariantUnderReset : ∃ s t : State, Inv s ∧ s.rst = true ∧ step s = .next t := by
  refine ⟨held, _, ?_, rfl, rfl⟩
  constructor <;> first
    | decide
    | exact fun _ => rfl
    | (intro h; cases h; done)
    | exact fun _ => ⟨rfl, rfl⟩
    | exact fun _ => ⟨rfl, rfl, rfl⟩
    | exact fun _ => ⟨rfl, rfl, rfl, rfl, rfl⟩

/-- Of StepKeepsInvariant: a state with every valid flag set meets the invariant, and it takes a step. -/
theorem witness_Invariant :
    ∃ s t : State, Inv s ∧ s.status.codeValid = true ∧ step s = .next t := by
  refine ⟨{ withTrunc 7 State.reset with
      res := { (withTrunc 7 State.reset).res with
        code := 7#32, str := fillBuffer 8 (codeString 7 6), codeLen := 6#4 }
      status := { (withTrunc 7 State.reset).status with codeValid := true } }, _,
    ⟨fun _ => rfl, fun _ => rfl, fun _ => rfl, by decide, by decide, ?_, by decide, by decide,
      fun _ => ⟨by decide, by decide, ?_, ?_, by decide⟩, (fun h => nomatch h), by decide⟩, rfl, rfl⟩
  · intro _
    exact .inr ⟨by decide, fun i _ => byteAt_zero i⟩
  · intro i hi
    have hall : ∀ j : Fin 6, 0x30 ≤ (byteAt (fillBuffer 8 (codeString 7 6)) j.val).toNat ∧
        (byteAt (fillBuffer 8 (codeString 7 6)) j.val).toNat ≤ 0x39 := by decide
    exact hall ⟨i, hi⟩
  · intro i hi
    exact fill_zero i hi
where
  byteAt_zero (i : Nat) : byteAt (fillBuffer 32 ([] : List Byte)) i = 0#8 := by
    have : fillBuffer 32 ([] : List Byte) = Vector.replicate 32 0#8 := by decide
    rw [this]
    simp only [byteAt, Vector.toList_replicate, List.getD_eq_getElem?_getD, List.getElem?_replicate]
    split <;> rfl
  fill_zero (i : Nat) (hi : 6 ≤ i) : byteAt (fillBuffer 8 (codeString 7 6)) i = 0#8 := by
    by_cases h : i < 8
    · have hall : ∀ j : Fin 8, 6 ≤ j.val → byteAt (fillBuffer 8 (codeString 7 6)) j.val = 0#8 := by decide
      exact hall ⟨i, h⟩ hi
    · have hl : (fillBuffer 8 (codeString 7 6)).toList.length = 8 := by simp
      simp only [byteAt, List.getD_eq_getElem?_getD]
      rw [List.getElem?_eq_none (by omega)]
      rfl

/-- Of AdmittedAccessesNeverFault and AcceptedCommandCompletes: HOTP in progress, a polling host, and a
schedule in which both have turns. -/
theorem witness_Progress :
    ∃ s : State, s.busy = true ∧ s.rst = false ∧ (∀ turn ∈ s.turns, turn = .host ∨ turn = .core) ∧ s.turns ≠ [] ∧
      (∀ st ∈ s.host.prog, st.wellFormed s.host.prog.length = true) ∧ s.host.prog ≠ [] :=
  ⟨scheduled [.host, .host, .core]
    (hosting [.rd 0x010 32 0, .bnz 0 1#32 0, .wr 0x010 32 0xE#32, .halt] (running 6#32 State.reset)), by decide⟩

theorem witness_MessageSchedules :
    (List.replicate 64 0xAA#8).length = 64 ∧ (0 < 16 ∧ 15 < 16) ∧ (16 ≤ 16 ∧ 79 < 80 ∧ 63 < 64) := by decide

theorem witness_KeyLengthCases :
    64 < (List.replicate 65 0xAA#8).length ∧ ([] : List Byte).length + 64 ≤ 64 ∧
      secretKey.length + 3 ≤ 64 := by decide

end Sys2Proof.Tests
end

section

/-! PROOFS. The register window by bus address (00_scope.md R11, R14, 20_memory.md R80, R84). -/

namespace Sys2Proof

/-- OTP_BASE is aligned to the size of the window (R11, R80). -/
theorem otpBase_mod_windowBytes : Config.otpBase % Config.windowBytes = 0 :=
  Nat.mul_mod_right Config.windowBytes Config.otpPage

/-- Every register lies in the window (R80, R81). -/
theorem Reg.offset_lt_windowBytes (r : Reg) : r.offset < Config.windowBytes := by
  cases r
  case digest k => simp only [Reg.offset, Config.windowBytes]; omega
  case key k => simp only [Reg.offset, Config.windowBytes]; omega
  all_goals decide

/-- No access past the end of the window is admitted (R82). -/
theorem admitted_eq_none_of_windowBytes_le {off : Nat} (size : Nat) (h : Config.windowBytes ≤ off) :
    admitted off size = none := by
  cases ha : admitted off size with
  | none => rfl
  | some r =>
    obtain ⟨-, rfl⟩ := admitted_eq_some.mp ha
    exact absurd r.offset_lt_windowBytes (Nat.not_lt.mpr h)

namespace Machine

/-- A read the window does not admit is a bus error (R84). -/
theorem busRead_of_not_admitted {off size : Nat} {s : State} (hr : s.rst = false)
    (ha : admitted off size = none) : busRead off size s = .error .busError := by
  simp [busRead, hr, ha]

/-- A write the window does not admit is a bus error (R84). -/
theorem busWrite_of_not_admitted {off size : Nat} {s : State} (v : Word) (hr : s.rst = false)
    (ha : admitted off size = none) : busWrite off size v s = .error .busError := by
  simp [busWrite, hr, ha]

@[simp] theorem memRead_otpBase_add (off : Nat) (s : State) :
    memRead (Config.otpBase + off) s = busRead off Config.regBits s := by
  simp [memRead]

@[simp] theorem memWrite_otpBase_add (off : Nat) (v : Word) (s : State) :
    memWrite (Config.otpBase + off) v s = busWrite off Config.regBits v s := by
  simp [memWrite]

theorem memRead_below_window {addr : Nat} (s : State) (h : addr < Config.otpBase) :
    memRead addr s = .error .busError :=
  if_pos h

theorem memWrite_below_window {addr : Nat} (v : Word) (s : State) (h : addr < Config.otpBase) :
    memWrite addr v s = .error .busError :=
  if_pos h

/-- Settles O46. An address past the window is the base plus an offset that no register has. -/
theorem busAddressesReachTheWindow : Obligations.BusAddressesReachTheWindow := by
  refine ⟨otpBase_mod_windowBytes,
    fun s off v => ⟨memRead_otpBase_add off s, memWrite_otpBase_add off v s⟩, ?_⟩
  rintro s addr v hr (hbelow | hpast)
  · exact ⟨memRead_below_window s hbelow, memWrite_below_window v s hbelow⟩
  · obtain ⟨k, hk⟩ := Nat.exists_eq_add_of_le hpast
    have ha : admitted (0x200 + k) Config.regBits = none :=
      admitted_eq_none_of_windowBytes_le _ (Nat.le_add_right _ k)
    rw [hk, Nat.add_assoc, memRead_otpBase_add, memWrite_otpBase_add]
    exact ⟨busRead_of_not_admitted hr ha, busWrite_of_not_admitted v hr ha⟩

end Machine

end Sys2Proof

end

section

/-! PROOFS. Whose turn a step is, and every way a step goes on (40_command_execution.md R141). -/

namespace Sys2Proof.Machine

/-- The turn a step takes: the schedule's next one, at its end the default one. -/
def nextTurn (s : State) : Turn := s.turns.headD (defaultTurn s)

/-- The state with the next turn of the schedule used up. -/
def dropTurn (s : State) : State := { s with turns := s.turns.tail }

theorem step_eq_nextTurn (s : State) : step s = takeTurn (nextTurn s) (dropTurn s) := by
  obtain ⟨turn, rest, h, hs | ⟨hs, rfl, rfl⟩⟩ := step_eq_takeTurn s
  · simp [h, nextTurn, dropTurn, hs]
  · simp [h, nextTurn, dropTurn, hs]

/-- The turn is the one the schedule names, or the schedule is at its end. -/
theorem turns_of_nextTurn {s : State} {turn : Turn} (h : nextTurn s = turn) :
    s.turns = [] ∨ s.turns.head? = some turn := by
  subst h
  cases hs : s.turns with
  | nil => exact .inl rfl
  | cons turn rest => exact .inr (by simp [nextTurn, hs])

theorem defaultTurn_eq_core_or_host (s : State) : defaultTurn s = .core ∨ defaultTurn s = .host :=
  ite_eq_or_eq _ _ _

/-- A turn that is neither the sequencer's nor the host's stands in the schedule. -/
theorem head?_of_nextTurn {s : State} {turn : Turn} (h : nextTurn s = turn) (hc : turn ≠ .core)
    (hh : turn ≠ .host) : s.turns.head? = some turn := by
  rcases turns_of_nextTurn h with hs | hs
  · have hd : defaultTurn s = turn := by simpa [nextTurn, hs] using h
    rcases defaultTurn_eq_core_or_host s with hc' | hh'
    · exact absurd (hd.symm.trans hc') hc
    · exact absurd (hd.symm.trans hh') hh
  · exact hs

/-- Everything a step that goes on can be: the host's turn, a completion, a turn that changes nothing, or an
edge of `rst` that the schedule names. -/
theorem step_next_cases {s t : State} (h : step s = .next t) :
    ((s.turns = [] ∨ s.turns.head? = some .host) ∧ hostTurn (dropTurn s) = .next t) ∨
    ((s.turns = [] ∨ s.turns.head? = some .core) ∧ s.busy = true ∧ s.rst = false ∧
      completion (dropTurn s) = .next t) ∨
    t = dropTurn s ∨
    ((s.turns.head? = some .assertRst ∨ s.turns.head? = some .releaseRst) ∧
      ∃ level, t = resetCore level (dropTurn s)) := by
  rw [step_eq_nextTurn] at h
  rcases takeTurn_next_cases h with ⟨ht, hh⟩ | ⟨ht, hb, hr, hc⟩ | ⟨-, -, rfl⟩ | ⟨ht, rfl⟩ | ⟨ht, -, rfl⟩ |
    ⟨-, -, rfl⟩
  · exact .inl ⟨turns_of_nextTurn ht, hh⟩
  · exact .inr (.inl ⟨turns_of_nextTurn ht, hb, hr, hc⟩)
  · exact .inr (.inr (.inl rfl))
  · exact .inr (.inr (.inr ⟨.inl (head?_of_nextTurn ht nofun nofun), true, rfl⟩))
  · exact .inr (.inr (.inr ⟨.inr (head?_of_nextTurn ht nofun nofun), false, rfl⟩))
  · exact .inr (.inr (.inl rfl))

end Sys2Proof.Machine

end

section

/-! PROOFS. The results the core shows, that only a completion or an edge of `rst` changes (R37), and the
invariant of the core's data. -/

namespace Sys2Proof.Machine

/-! ## States that show the same results -/

/-- The result registers, their buffers and the valid flags of t are those of s. -/
structure SameResults (s t : State) : Prop where
  msgValid : t.status.msgValid = s.status.msgValid
  digestValid : t.status.digestValid = s.status.digestValid
  truncValid : t.status.truncValid = s.status.truncValid
  codeValid : t.status.codeValid = s.status.codeValid
  res : t.res = s.res

theorem finish_sameResults (e : ErrorCode) (s : State) : SameResults s (finish e s) :=
  ⟨rfl, rfl, rfl, rfl, rfl⟩

/-- No bus write changes a result (20_memory.md R82). -/
theorem writeReg_sameResults (r : Reg) (v : Word) (s : State) : SameResults s (writeReg r v s) := by
  rcases writeReg_cases r v s with ⟨-, h⟩ | ⟨-, h⟩ | h | ⟨-, h⟩ | ⟨-, -, h⟩ | ⟨-, h⟩ <;> rw [h] <;>
    exact ⟨rfl, rfl, rfl, rfl, rfl⟩

/-- No bus write touches the reset input, the host or the schedule. -/
theorem writeReg_keeps (r : Reg) (v : Word) (s : State) :
    (writeReg r v s).rst = s.rst ∧ (writeReg r v s).host = s.host ∧ (writeReg r v s).turns = s.turns := by
  rcases writeReg_cases r v s with ⟨-, h⟩ | ⟨-, h⟩ | h | ⟨-, h⟩ | ⟨-, -, h⟩ | ⟨-, h⟩ <;> rw [h] <;>
    exact ⟨rfl, rfl, rfl⟩

/-- No turn of the host changes a result. -/
theorem hostTurn_sameResults {s t : State} (h : hostTurn s = .next t) : SameResults s t := by
  rcases hostTurn_next_cases h with rfl | ⟨r, v, -, rfl⟩ | ⟨r, x, -, rfl⟩ | ⟨pc, rfl⟩ | rfl
  case inr.inl =>
    obtain ⟨hm, hd, ht, hc, hres⟩ := writeReg_sameResults r v s
    exact ⟨hm, hd, ht, hc, hres⟩
  all_goals exact ⟨rfl, rfl, rfl, rfl, rfl⟩

/-! ## What keeps the invariant as it is -/

/-- The invariant is of the results, of the reset values under `rst` and of the temporaries. -/
theorem Inv.of_sameResults {s t : State} (h : Inv s) (hst : SameResults s t)
    (hrst : t.rst = true → coreAtReset t) (htemps : tempsWf t.host.temps = true) : Inv t := by
  obtain ⟨hm, hd, ht, hc, hres⟩ := hst
  constructor
  case underReset => exact hrst
  case temps => exact htemps
  all_goals simp only [hm, hd, ht, hc, hres]
  · exact h.codeNeedsTrunc
  · exact h.truncNeedsDigest
  · exact h.digestNeedsMessage
  · exact h.messageClear
  · exact h.digestClear
  · exact h.digestForm
  · exact h.truncClear
  · exact h.codeClear
  · exact h.codeForm

/-- What leaves the core alone and the temporaries in canonical form keeps the invariant. -/
theorem Inv.of_sameCore {s t : State} (h : Inv s) (hst : sameCore s t)
    (htemps : tempsWf t.host.temps = true) : Inv t := by
  rw [hst]
  exact h.of_sameResults ⟨rfl, rfl, rfl, rfl, rfl⟩
    (fun hr => (h.underReset hr).of_fields rfl rfl rfl rfl rfl) htemps

theorem dropTurn_keeps_inv {s : State} (h : Inv s) : Inv (dropTurn s) := h.of_sameCore rfl h.temps

theorem finish_keeps_inv {s : State} (e : ErrorCode) (h : Inv s) (hr : s.rst = false) :
    Inv (finish e s) :=
  h.of_sameResults (finish_sameResults e s) (fun hr' => by simp [hr] at hr') h.temps

theorem inv_reset : Inv State.reset where
  codeNeedsTrunc := nofun
  truncNeedsDigest := nofun
  digestNeedsMessage := nofun
  messageClear _ := rfl
  digestClear _ := ⟨rfl, rfl⟩
  digestForm := nofun
  truncClear _ := rfl
  codeClear _ := ⟨rfl, rfl, rfl⟩
  codeForm := nofun
  underReset := nofun
  temps := rfl

theorem resetCore_keeps_inv {s : State} (level : Bool) (h : Inv s) : Inv (resetCore level s) :=
  inv_reset.of_sameResults ⟨rfl, rfl, rfl, rfl, rfl⟩ (fun _ => coreAtReset_resetCore level s) h.temps

theorem hostTurn_keeps_inv {s t : State} (h : Inv s) (ht : hostTurn s = .next t) : Inv t := by
  rcases hostTurn_next_cases ht with rfl | ⟨r, v, hr, rfl⟩ | ⟨r, x, -, rfl⟩ | ⟨pc, rfl⟩ | rfl
  · exact h
  · obtain ⟨hrst, hhost, -⟩ := writeReg_keeps r v s
    refine h.of_sameResults (hostTurn_sameResults ht) (fun hr' => ?_) ?_
    · simp [hrst, hr] at hr'
    · simpa [hhost] using h.temps
  · exact h.of_sameCore rfl (tempSet_wf _ _ h.temps)
  · exact h.of_sameCore rfl h.temps
  · exact h.of_sameCore rfl h.temps

/-! ## The form of a displayed code (44_code_formatter.md R232) -/

/-- A code string of one more digit is the string of the number without its last digit, then that digit. -/
theorem codeString_succ (c d : Nat) : codeString c (d + 1) = codeString (c / 10) d ++ [codeChar c (d + 1) d] := by
  have hchar : ∀ i ∈ List.range d, codeChar c (d + 1) i = codeChar (c / 10) d i := by
    intro i hi
    have hlt : i < d := List.mem_range.mp hi
    have hexp : d + 1 - 1 - i = (d - 1 - i) + 1 := by omega
    simp only [codeChar, hexp, Nat.div_div_eq_div_mul, Nat.pow_succ']
  simp only [codeString, List.range_succ, List.map_append, List.map_cons, List.map_nil,
    List.map_congr_left hchar]

/-- A code string of d digits spells the number's last d digits. -/
theorem decimalNat_codeString (c d : Nat) : decimalNat (codeString c d) = c % 10 ^ d := by
  induction d generalizing c with
  | zero => simp [codeString, decimalNat, Nat.mod_one]
  | succ d ih =>
    have hlast : (codeChar c (d + 1) d).toNat - 0x30 = c % 10 := by
      simp [codeChar_toNat]
    calc decimalNat (codeString c (d + 1))
        = decimalNat (codeString (c / 10) d) * 10 + ((codeChar c (d + 1) d).toNat - 0x30) := by
          simp [codeString_succ, decimalNat]
      _ = c % 10 ^ (d + 1) := by
          rw [ih, hlast, Nat.pow_succ', Nat.mod_mul, Nat.mul_comm, Nat.add_comm]

/-- A code fits its register: it is below TRUNC. -/
theorem codeValue_toNat (v : BitVec 31) (d : Nat) : (BitVec.ofNat 32 (codeValue v d)).toNat = codeValue v d := by
  have hle : codeValue v d ≤ v.toNat := Nat.mod_le _ _
  exact Nat.mod_eq_of_lt (by omega)

/-- A code written with DIGITS 6, 7 or 8 is well formed. -/
theorem writeCode_codeWellFormed {v : BitVec 31} {d : BitVec 4} (s : State)
    (hd : 6 ≤ d.toNat ∧ d.toNat ≤ 8) : CodeWellFormed (writeCode v d s).res := by
  have hstr : (fillBuffer 8 (codeString (codeValue v d.toNat) d.toNat)).toList.take d.toNat =
      codeString (codeValue v d.toNat) d.toNat := by
    simpa using fillBuffer_take 8 (codeString (codeValue v d.toNat) d.toNat) (by simpa using hd.2)
  constructor
  case length => exact hd
  case bound =>
    simp only [writeCode_res, codeValue_toNat]
    exact codeValue_lt v d.toNat
  case digits =>
    intro i hi
    simp only [writeCode_res] at hi ⊢
    rw [byteAt_fillBuffer, if_pos (by omega), codeString_getD _ _ _ hi, codeChar_toNat]
    omega
  case fill =>
    intro i hi
    simp only [writeCode_res] at hi ⊢
    rw [byteAt_fillBuffer, List.getD_eq_default _ _ (by simpa using hi), ite_self]
  case value =>
    simp only [writeCode_res, hstr, codeValue_toNat, decimalNat_codeString]
    exact Nat.mod_eq_of_lt (codeValue_lt v d.toNat)

/-- A digest of the algorithm's length is in the buffer as R44 and R52 say: DLEN is 20 or 32, and no byte of a
20-byte one is past index 19. -/
theorem writeDigest_digestForm (a : Alg) {d : List Byte} (hd : d.length = digestBytes a) (s : State) :
    (writeDigest a d s).res.digestLen = 32#8 ∨
      ((writeDigest a d s).res.digestLen = 20#8 ∧
        ∀ i, 20 ≤ i → byteAt (writeDigest a d s).res.dig i = 0#8) := by
  cases a with
  | sha256 => exact .inl rfl
  | sha1 =>
    refine .inr ⟨rfl, fun i hi => ?_⟩
    have hpast : d.length ≤ i := hd ▸ hi
    simp only [writeDigest_res]
    rw [byteAt_fillBuffer, List.getD_eq_default _ _ hpast, ite_self]

/-- Whether a code is well formed rests on CODE, its string and its length only. -/
theorem CodeWellFormed.of_sameCode {q r : Results} (h : CodeWellFormed q) (hcode : r.code = q.code)
    (hstr : r.str = q.str) (hlen : r.codeLen = q.codeLen) : CodeWellFormed r := by
  obtain ⟨length, bound, digits, fill, value⟩ := h
  constructor <;> simpa only [hcode, hstr, hlen]

/-! ## Each unit's write keeps the invariant -/

section

variable {s : State} (h : Inv s) (hr : s.rst = false)

include h hr

theorem writeMessage_keeps_inv (c : DWord) : Inv (writeMessage c s) :=
  { h with
    digestNeedsMessage := fun _ => rfl
    messageClear := nofun
    codeForm := fun hc => (h.codeForm hc).of_sameCode rfl rfl rfl
    underReset := fun hr' => absurd hr' (by simp [hr]) }

theorem writeDigest_keeps_inv (a : Alg) {d : List Byte} (hm : s.status.msgValid = true)
    (hd : d.length = digestBytes a) : Inv (writeDigest a d s) :=
  { h with
    truncNeedsDigest := fun _ => rfl
    digestNeedsMessage := fun _ => hm
    digestClear := nofun
    digestForm := fun _ => writeDigest_digestForm a hd s
    codeForm := fun hc => (h.codeForm hc).of_sameCode rfl rfl rfl
    underReset := fun hr' => absurd hr' (by simp [hr]) }

theorem writeTrunc_keeps_inv (v : BitVec 31) (hd : s.status.digestValid = true) :
    Inv (writeTrunc v s) :=
  { h with
    codeNeedsTrunc := fun _ => rfl
    truncNeedsDigest := fun _ => hd
    truncClear := nofun
    codeForm := fun hc => (h.codeForm hc).of_sameCode rfl rfl rfl
    underReset := fun hr' => absurd hr' (by simp [hr]) }

theorem writeCode_keeps_inv (v : BitVec 31) {d : BitVec 4} (ht : s.status.truncValid = true)
    (hd : 6 ≤ d.toNat ∧ d.toNat ≤ 8) : Inv (writeCode v d s) :=
  { h with
    codeNeedsTrunc := fun _ => ht
    codeClear := nofun
    codeForm := fun _ => writeCode_codeWellFormed s hd
    underReset := fun hr' => absurd hr' (by simp [hr]) }

/-- The pipeline is the four writes in order, each on what the one before it left. -/
theorem runPipeline_keeps_inv (a : Alg) (c : DWord) (hd : digitsOutOfBounds s = false) :
    Inv (runPipeline a c s) := by
  have hmsg := writeMessage_keeps_inv h hr c
  have hdig := writeDigest_keeps_inv hmsg hr a rfl (hmac_length a (secretOf s) (be64 c))
  have htrunc := writeTrunc_keeps_inv hdig hr (dynamicTruncate (hmac a (secretOf s) (be64 c))) rfl
  exact writeCode_keeps_inv htrunc hr _ rfl ((digitsOutOfBounds_eq_false_iff s).mp hd)

theorem zeroizeData_keeps_inv : Inv (zeroizeData s) :=
  inv_reset.of_sameResults ⟨rfl, rfl, rfl, rfl, rfl⟩ (fun hr' => absurd hr' (by simp [hr])) h.temps

theorem effect_keeps_inv {i : Instr} {s' : State} (he : Effect s i s') : Inv s' := by
  cases he with
  | nop => exact h
  | encode => exact writeMessage_keeps_inv h hr _
  | tencode c _ => exact writeMessage_keeps_inv h hr c
  | hmac a _ _ hm => exact writeDigest_keeps_inv h hr a hm (hmac_length ..)
  | trunc hd => exact writeTrunc_keeps_inv h hr _ hd
  | format hd ht => exact writeCode_keeps_inv h hr _ ht ((digitsOutOfBounds_eq_false_iff s).mp hd)
  | hotp hd _ => exact runPipeline_keeps_inv h hr _ _ hd
  | totp a c hd _ _ _ => exact runPipeline_keeps_inv h hr a c hd
  | zeroize => exact zeroizeData_keeps_inv h hr

theorem completion_keeps_inv {t : State} (ht : completion s = .next t) : Inv t := by
  rcases completion_cases s with ⟨e, -, he⟩ | ⟨i, s', -, he, hc⟩
  · cases he.symm.trans ht
    exact finish_keeps_inv e h hr
  · cases hc.symm.trans ht
    have hrst : s'.rst = false := by
      obtain ⟨-, -, -, hrst, -, -⟩ := he.keeps
      exact hrst.trans hr
    exact finish_keeps_inv .none (effect_keeps_inv h hr he) hrst

end

/-- Settles O53, by the four ways a step goes on. -/
theorem stepKeepsInvariant : Obligations.StepKeepsInvariant := by
  intro s t h hstep
  have hd : Inv (dropTurn s) := dropTurn_keeps_inv h
  rcases step_next_cases hstep with ⟨-, hh⟩ | ⟨-, -, hr, hc⟩ | rfl | ⟨-, level, rfl⟩
  · exact hostTurn_keeps_inv hd hh
  · exact completion_keeps_inv hd hr hc
  · exact hd
  · exact resetCore_keeps_inv level hd

end Sys2Proof.Machine

end

section

/-! PROOFS. Who changes the core: the valid flags and the operand registers under each command (R37, R41, R51),
and the core as a whole under each turn (R56). -/

namespace Sys2Proof.Machine

/-! ## Valid flags and operand registers -/

/-- No command but ZEROIZE clears a valid flag. -/
theorem Effect.keeps_validFlags {s s' : State} {i : Instr} (h : Effect s i s') (hi : i ≠ .zeroize) :
    ∀ flag ∈ [Status.msgValid, Status.digestValid, Status.truncValid, Status.codeValid],
      flag s.status = true → flag s'.status = true := by
  cases h <;> simp at hi ⊢

/-- A command sets only the valid flags of the results it writes. -/
theorem Effect.sets_validFlags {s s' : State} {i : Instr} (h : Effect s i s') :
    (s.status.msgValid = false → s'.status.msgValid = true →
      i ∈ [Instr.encode, .tencode, .hotp, .totp]) ∧
    (s.status.digestValid = false → s'.status.digestValid = true → i ∈ [Instr.hmac, .hotp, .totp]) ∧
    (s.status.truncValid = false → s'.status.truncValid = true → i ∈ [Instr.trunc, .hotp, .totp]) ∧
    (s.status.codeValid = false → s'.status.codeValid = true → i ∈ [Instr.format, .hotp, .totp]) := by
  cases h <;> simp +contextual

/-- Everything a step can do to the results: nothing, the effect of the command in progress, or the reset
values at an edge of `rst`. -/
theorem step_results_cases {s t : State} (h : step s = .next t) :
    SameResults s t ∨
    (s.busy = true ∧ ∃ i s', decode s.cmd = some i ∧ Effect (dropTurn s) i s' ∧ SameResults s' t) ∨
    ((s.turns.head? = some .assertRst ∨ s.turns.head? = some .releaseRst) ∧ SameResults State.reset t) := by
  rcases step_next_cases h with ⟨-, hh⟩ | ⟨-, hb, -, hc⟩ | rfl | ⟨hedge, level, rfl⟩
  · obtain ⟨hm, hd, ht, hc, hres⟩ := hostTurn_sameResults hh
    exact .inl ⟨hm, hd, ht, hc, hres⟩
  · rcases completion_cases (dropTurn s) with ⟨e, -, he⟩ | ⟨i, s', hi, he, hc'⟩
    · cases he.symm.trans hc
      exact .inl ⟨rfl, rfl, rfl, rfl, rfl⟩
    · cases hc'.symm.trans hc
      exact .inr (.inl ⟨hb, i, s', hi, he, finish_sameResults .none s'⟩)
  · exact .inl ⟨rfl, rfl, rfl, rfl, rfl⟩
  · exact .inr (.inr ⟨hedge, ⟨rfl, rfl, rfl, rfl, rfl⟩⟩)

theorem SameResults.validFlags {s t : State} (h : SameResults s t) :
    ∀ flag ∈ [Status.msgValid, Status.digestValid, Status.truncValid, Status.codeValid],
      flag t.status = flag s.status := by
  simp [h.msgValid, h.digestValid, h.truncValid, h.codeValid]

/-- Settles O28, by what a step can do to the results. -/
theorem validFlagsChangeOnlyAsNamed : Obligations.ValidFlagsChangeOnlyAsNamed := by
  intro s t hstep
  rcases step_results_cases hstep with hst | ⟨hb, i, s', hi, he, hst⟩ | ⟨hedge, hst⟩
  case inl =>
    simp only [hst.msgValid, hst.digestValid, hst.truncValid, hst.codeValid]
    refine ⟨by simp +contextual, by simp +contextual, by simp +contextual, by simp +contextual,
      fun flag hf h0 h1 => ?_⟩
    exact absurd (hst.validFlags flag hf) (by simp [h0, h1])
  case inr.inl =>
    obtain ⟨hm, hd, ht, hc⟩ := he.sets_validFlags
    refine ⟨fun h0 h1 => ⟨hb, i, hm h0 (hst.msgValid ▸ h1), hi⟩,
      fun h0 h1 => ⟨hb, i, hd h0 (hst.digestValid ▸ h1), hi⟩,
      fun h0 h1 => ⟨hb, i, ht h0 (hst.truncValid ▸ h1), hi⟩,
      fun h0 h1 => ⟨hb, i, hc h0 (hst.codeValid ▸ h1), hi⟩, fun flag hf h0 h1 => .inl ⟨hb, ?_⟩⟩
    by_contra hz
    have hkept := he.keeps_validFlags (fun hiz => hz (hiz ▸ hi)) flag hf h0
    simp [hst.validFlags flag hf, hkept] at h1
  case inr.inr =>
    simp only [hst.msgValid, hst.digestValid, hst.truncValid, hst.codeValid]
    exact ⟨nofun, nofun, nofun, nofun, fun _ _ _ _ => .inr hedge⟩

/-- No command writes the operands but ZEROIZE. -/
theorem Effect.keeps_ops {s s' : State} {i : Instr} (h : Effect s i s') (hi : i ≠ .zeroize) :
    s'.ops = s.ops := by
  cases h with
  | zeroize => exact absurd rfl hi
  | _ => rfl

/-- Settles O29. -/
theorem commandsKeepOperands : Obligations.CommandsKeepOperands := by
  intro i s t h
  constructor
  · intro hi
    rcases exec_cases i s with ⟨e, -, he⟩ | ⟨s', he, h'⟩
    · cases he.symm.trans h
      exact finish_ops e s
    · cases h'.symm.trans h
      exact (finish_ops .none s').trans (he.keeps_ops hi)
  · rintro rfl
    cases h
    rfl

/-! ## The core as a whole -/

/-- A turn of the host that goes on is idle or its next statement. -/
theorem hostTurn_next_stmt {s t : State} (h : hostTurn s = .next t) :
    t = s ∨ ∃ st, s.host.prog[s.host.pc]? = some st ∧ hostStatement st s = .next t := by
  simp only [hostTurn] at h
  split at h
  · cases h; exact .inl rfl
  · split at h
    · cases h; exact .inl rfl
    · rename_i st hst
      exact .inr ⟨st, hst, h⟩

/-- A turn of the host that is no bus write leaves the core as it is: a read has no side effect (R56). -/
theorem hostTurn_sameCore_or_write {s t : State} (h : hostTurn s = .next t) :
    sameCore s t ∨ ∃ off size v, s.host.prog[s.host.pc]? = some (.wr off size v) := by
  rcases hostTurn_next_stmt h with rfl | ⟨st, hst, h⟩
  · exact .inl rfl
  · cases st with
    | wr off size v => exact .inr ⟨off, size, v, hst⟩
    | rd off size x =>
      simp only [hostStatement] at h
      split at h <;> cases h
      exact .inl rfl
    | bnz x mask target =>
      simp only [hostStatement] at h
      split at h <;> cases h <;> exact .inl rfl
    | halt => cases h; exact .inl rfl

/-- Settles O45, by the four ways a step goes on. -/
theorem onlyWritesCompletionsAndResetChangeTheCore :
    Obligations.OnlyWritesCompletionsAndResetChangeTheCore := by
  intro s t hstep hcore
  rcases step_next_cases hstep with ⟨hturn, hh⟩ | ⟨hturn, hb, hr, -⟩ | rfl | ⟨hedge, -⟩
  · rcases hostTurn_sameCore_or_write hh with hsame | hw
    · exact absurd hsame hcore
    · exact .inl ⟨hturn, hw⟩
  · exact .inr (.inl ⟨hturn, hb, hr⟩)
  · exact absurd rfl hcore
  · exact .inr (.inr hedge)

end Sys2Proof.Machine

end

section

/-! PROOFS. Two runs that the host cannot tell apart: with another key, and with another idle command word (R50,
R54, R55, R284); and two completions that no command tells apart (R51). -/

namespace Sys2Proof.Machine

/-! ## What the host cannot see -/

/-- The turn of a host that has no statement left changes nothing. -/
theorem hostTurn_pastEnd {s : State} (hp : s.host.prog[s.host.pc]? = none) : hostTurn s = .next s := by
  simp [hostTurn, hp]

/-- A relation of states that no host sees: related states have one host and one level of `rst` and read alike,
and stay related under a bus write and under any progress of the host. -/
structure HiddenFromHost (R : State → State → Prop) : Prop where
  host : ∀ {s s' : State}, R s s' → s'.host = s.host
  rst : ∀ {s s' : State}, R s s' → s'.rst = s.rst
  read : ∀ {s s' : State}, R s s' → ∀ r, readReg r s' = readReg r s
  write : ∀ {s s' : State}, R s s' → ∀ r v, R (writeReg r v s) (writeReg r v s')
  setHost : ∀ {s s' : State}, R s s' → ∀ a, R { s with host := a } { s' with host := a }

section

variable {R : State → State → Prop} (hR : HiddenFromHost R) {s s' t : State} (h : R s s')

include hR h

theorem hostGoto_simulates (pc : Nat) : R (hostGoto pc s) (hostGoto pc s') := by
  simp only [hostGoto, hR.host h]
  exact hR.setHost h _

theorem hostAdvance_simulates : R (hostAdvance s) (hostAdvance s') := by
  simp only [hostAdvance, hR.host h]
  exact hostGoto_simulates hR h _

theorem hostReceive_simulates (x : Nat) (v : Word) : R (hostReceive x v s) (hostReceive x v s') := by
  simp only [hostReceive, hR.host h]
  exact hostAdvance_simulates hR (hR.setHost h _)

/-- One statement from related states goes on to related states. -/
theorem hostStatement_simulates {st : Stmt} (ht : hostStatement st s = .next t) :
    ∃ t', hostStatement st s' = .next t' ∧ R t t' := by
  cases st with
  | wr off size v =>
    simp only [hostStatement] at ht ⊢
    rcases busWrite_cases off size v s with ⟨-, hb⟩ | ⟨-, -, hb⟩ | ⟨r, hr, rfl, rfl, hb⟩ <;> rw [hb] at ht <;>
      cases ht
    rw [busWrite_register ((hR.rst h).trans hr)]
    exact ⟨_, rfl, hostAdvance_simulates hR (hR.write h r v)⟩
  | rd off size x =>
    simp only [hostStatement] at ht ⊢
    rcases busRead_cases off size s with ⟨-, hb⟩ | ⟨-, -, hb⟩ | ⟨r, hr, rfl, rfl, hb⟩ <;> rw [hb] at ht <;>
      cases ht
    rw [busRead_register ((hR.rst h).trans hr), hR.read h]
    exact ⟨_, rfl, hostReceive_simulates hR h x _⟩
  | bnz x mask target =>
    simp only [hostStatement, hR.host h] at ht ⊢
    by_cases hx : tempGet s.host.temps x &&& mask = 0#32
    · rw [if_pos hx] at ht ⊢
      cases ht
      exact ⟨_, rfl, hostAdvance_simulates hR h⟩
    · rw [if_neg hx] at ht ⊢
      cases ht
      exact ⟨_, rfl, hostGoto_simulates hR h target⟩
  | halt =>
    cases ht
    simp only [hostStatement, hR.host h]
    exact ⟨_, rfl, hR.setHost h _⟩

/-- A turn of the host from related states goes on to related states. -/
theorem hostTurn_simulates (ht : hostTurn s = .next t) : ∃ t', hostTurn s' = .next t' ∧ R t t' := by
  have hhost := hR.host h
  cases hh : s.host.halted with
  | true =>
    cases (hostTurn_halted hh).symm.trans ht
    exact ⟨s', hostTurn_halted (hhost ▸ hh), h⟩
  | false =>
    cases hp : s.host.prog[s.host.pc]? with
    | none =>
      cases (hostTurn_pastEnd hp).symm.trans ht
      exact ⟨s', hostTurn_pastEnd (hhost ▸ hp), h⟩
    | some st =>
      rw [hostTurn_running hh hp] at ht
      rw [hostTurn_running (hhost ▸ hh) (hhost ▸ hp)]
      exact hostStatement_simulates hR h ht

end

/-! ## Another key buffer -/

/-- The state with another key buffer. -/
def withKey (key : Vector Byte 128) (s : State) : State := { s with ops := { s.ops with key := key } }

/-- No register shows the key buffer (R50). -/
@[simp] theorem readReg_withKey (r : Reg) (key : Vector Byte 128) (s : State) :
    readReg r (withKey key s) = readReg r s := by
  cases r <;> rfl

/-- Two states that differ in the key buffer at most. -/
def sameButKey (s s' : State) : Prop := ∃ key, s' = withKey key s

/-- What a write does elsewhere does not rest on the key buffer (R82). -/
theorem writeReg_sameButKey (r : Reg) (v : Word) (key : Vector Byte 128) (s : State) :
    sameButKey (writeReg r v s) (writeReg r v (withKey key s)) := by
  refine ⟨(writeReg r v (withKey key s)).ops.key, ?_⟩
  cases hb : s.busy <;> cases r <;> simp [writeReg, withKey, hb, writeOperand, ignoreWrite, accept]

theorem sameButKey_hiddenFromHost : HiddenFromHost sameButKey where
  host := by rintro s _ ⟨key, rfl⟩; rfl
  rst := by rintro s _ ⟨key, rfl⟩; rfl
  read := by rintro s _ ⟨key, rfl⟩ r; exact readReg_withKey r key s
  write := by rintro s _ ⟨key, rfl⟩ r v; exact writeReg_sameButKey r v key s
  setHost := by rintro s _ ⟨key, rfl⟩ a; exact ⟨key, rfl⟩

/-- Settles O47: the key buffer is hidden from the host. -/
theorem keyHiddenFromTheHost : Obligations.KeyHiddenFromTheHost := by
  intro s t key ht
  obtain ⟨_, ht', key', rfl⟩ := hostTurn_simulates sameButKey_hiddenFromHost ⟨key, rfl⟩ ht
  exact ⟨key', ht'⟩

/-- The secret is the buffer's first KEYLEN bytes and nothing else of it (R51). -/
theorem secretOf_withKey {s : State} {key : Vector Byte 128}
    (h : ∀ j, j < s.ops.keyLen.toNat → byteAt key j = byteAt s.ops.key j) :
    secretOf (withKey key s) = secretOf s := by
  refine List.ext_getElem (by simp [secretOf, withKey]) fun j hj _ => ?_
  obtain ⟨hlen, hj⟩ : j < s.ops.keyLen.toNat ∧ j < 128 := by simpa [secretOf, withKey] using hj
  simpa [secretOf, withKey, byteAt, hj] using h j hlen

/-- An outcome with its next state changed. -/
def mapNext (f : State → State) : Outcome → Outcome
  | .next s => .next (f s)
  | .fault r => .fault r
  | .refused r => .refused r

theorem runPipeline_withKey (a : Alg) (c : DWord) {s : State} {key : Vector Byte 128}
    (h : secretOf (withKey key s) = secretOf s) :
    runPipeline a c (withKey key s) = withKey key (runPipeline a c s) := by
  simp only [runPipeline, h]
  rfl

section

variable (key : Vector Byte 128) (s : State)

@[simp] theorem digitsOutOfBounds_withKey : digitsOutOfBounds (withKey key s) = digitsOutOfBounds s := rfl
@[simp] theorem keyLenBad_withKey : keyLenBad (withKey key s) = keyLenBad s := rfl
@[simp] theorem timestampOf_withKey : timestampOf (withKey key s) = timestampOf s := rfl
@[simp] theorem withKey_alg : (withKey key s).ops.alg = s.ops.alg := rfl
@[simp] theorem withKey_timeStep : (withKey key s).ops.timeStep = s.ops.timeStep := rfl
@[simp] theorem withKey_status : (withKey key s).status = s.status := rfl

end

/-- A command that sees the same secret does the same with another key buffer, which it keeps. -/
theorem exec_withKey {i : Instr} (hi : i ≠ .zeroize) {s : State} {key : Vector Byte 128}
    (h : secretOf (withKey key s) = secretOf s) :
    exec i (withKey key s) = mapNext (withKey key) (exec i s) := by
  cases i with
  | nop | encode => rfl
  | zeroize => exact absurd rfl hi
  | tencode =>
    simp only [exec, execTencode, timestampOf_withKey, withKey_timeStep]
    cases timeCounter (timestampOf s) s.ops.timeStep <;> rfl
  | hmac =>
    simp only [exec, execHmac, withKey_alg, keyLenBad_withKey, withKey_status, h]
    cases selectAlg s.ops.alg with
    | none => rfl
    | some a => cases keyLenBad s <;> cases s.status.msgValid <;> rfl
  | trunc =>
    cases hv : s.status.digestValid <;> simp only [exec, execTrunc, withKey_status, hv] <;> rfl
  | format =>
    cases hd : digitsOutOfBounds s <;> cases hv : s.status.truncValid <;>
      simp only [exec, execFormat, digitsOutOfBounds_withKey, withKey_status, hd, hv] <;> rfl
  | hotp =>
    simp only [exec, execHotp, digitsOutOfBounds_withKey, keyLenBad_withKey, runPipeline_withKey _ _ h]
    cases digitsOutOfBounds s <;> cases keyLenBad s <;> rfl
  | totp =>
    simp only [exec, execTotp, digitsOutOfBounds_withKey, timestampOf_withKey, withKey_timeStep, withKey_alg,
      keyLenBad_withKey, runPipeline_withKey _ _ h]
    cases digitsOutOfBounds s with
    | true => rfl
    | false =>
      cases timeCounter (timestampOf s) s.ops.timeStep with
      | error e => rfl
      | ok c =>
        cases selectAlg s.ops.alg with
        | none => rfl
        | some a => cases keyLenBad s <;> rfl

/-- Settles O48: a command reads the key buffer through the secret alone. -/
theorem keyBytesPastKeylenUnread : Obligations.KeyBytesPastKeylenUnread := by
  intro i s t key hkey ht
  by_cases hi : i = .zeroize
  · subst hi
    cases ht
    rfl
  · rw [if_neg hi]
    exact (exec_withKey hi (secretOf_withKey hkey)).trans (congrArg (mapNext (withKey key)) ht)

/-! ## Another command word while idle -/

/-- The state with another command word. -/
def withCmd (w : Word) (s : State) : State := { s with cmd := w }

/-- Two states that differ in the command word at most, and not in that of a command in progress. -/
def sameButIdleCmd (s s' : State) : Prop := ∃ w, s' = withCmd w s ∧ (s.busy = true → w = s.cmd)

theorem sameButIdleCmd_refl (s : State) : sameButIdleCmd s s := ⟨s.cmd, rfl, fun _ => rfl⟩

/-- With a command in progress they are the same state. -/
theorem sameButIdleCmd.eq_of_busy {s s' : State} (h : sameButIdleCmd s s') (hb : s.busy = true) : s' = s := by
  obtain ⟨w, rfl, hw⟩ := h
  rw [hw hb]
  rfl

theorem sameButIdleCmd_of_idle {s : State} (w : Word) (hb : s.busy = false) : sameButIdleCmd s (withCmd w s) :=
  ⟨w, rfl, fun hb' => absurd hb' (by simp [hb])⟩

theorem writeReg_cmd_of_idle {s : State} {v : Word} (hb : s.busy = false) : writeReg .cmd v s = accept v s := by
  simp [writeReg, hb]

/-- A write to another register than CMD starts no command and does not see the command word. -/
theorem writeReg_of_idle {s : State} (hb : s.busy = false) {r : Reg} (hr : r ≠ .cmd) (v : Word) :
    (writeReg r v s).busy = false ∧ ∀ w, writeReg r v (withCmd w s) = withCmd w (writeReg r v s) := by
  cases r <;> simp [writeReg, withCmd, hb] at hr ⊢

/-- An idle core's accept overwrites the command word; no other write reads or writes it. -/
theorem writeReg_sameButIdleCmd {s : State} (hb : s.busy = false) (w : Word) (r : Reg) (v : Word) :
    sameButIdleCmd (writeReg r v s) (writeReg r v (withCmd w s)) := by
  by_cases hr : r = .cmd
  · subst hr
    rw [writeReg_cmd_of_idle hb, writeReg_cmd_of_idle (s := withCmd w s) hb]
    exact sameButIdleCmd_refl (accept v s)
  · obtain ⟨hidle, hcmd⟩ := writeReg_of_idle hb hr v
    rw [hcmd w]
    exact sameButIdleCmd_of_idle w hidle

theorem sameButIdleCmd_hiddenFromHost : HiddenFromHost sameButIdleCmd where
  host := by rintro s _ ⟨w, rfl, -⟩; rfl
  rst := by rintro s _ ⟨w, rfl, -⟩; rfl
  read := by rintro s _ ⟨w, rfl, -⟩ r; cases r <;> rfl
  write := by
    intro s s' h r v
    cases hb : s.busy with
    | true => rw [h.eq_of_busy hb]; exact sameButIdleCmd_refl _
    | false => obtain ⟨w, rfl, -⟩ := h; exact writeReg_sameButIdleCmd hb w r v
  setHost := by rintro s _ ⟨w, rfl, hw⟩ a; exact ⟨w, rfl, hw⟩

/-- A turn from states that differ in an idle command word goes on to such states. -/
theorem takeTurn_sameButIdleCmd {turn : Turn} {s s' t : State} (h : sameButIdleCmd s s')
    (ht : takeTurn turn s = .next t) : ∃ t', takeTurn turn s' = .next t' ∧ sameButIdleCmd t t' := by
  cases hb : s.busy with
  | true => rw [h.eq_of_busy hb]; exact ⟨t, ht, sameButIdleCmd_refl t⟩
  | false =>
    obtain ⟨w, rfl, -⟩ := h
    rcases takeTurn_next_cases ht with ⟨rfl, hh⟩ | ⟨-, hb', -⟩ | ⟨rfl, -, rfl⟩ | ⟨rfl, rfl⟩ | ⟨rfl, hr, rfl⟩ |
      ⟨rfl, hr, rfl⟩
    · exact hostTurn_simulates sameButIdleCmd_hiddenFromHost (sameButIdleCmd_of_idle w hb) hh
    · simp [hb] at hb'
    · exact ⟨withCmd w t, by simp [takeTurn, coreTurn, withCmd, hb], sameButIdleCmd_of_idle w hb⟩
    · exact ⟨_, rfl, sameButIdleCmd_refl _⟩
    · exact ⟨_, by simp [takeTurn, resetTurn, withCmd, hr]; rfl, sameButIdleCmd_refl _⟩
    · exact ⟨withCmd w t, by simp [takeTurn, resetTurn, withCmd, hr], sameButIdleCmd_of_idle w hb⟩

/-- Settles O49: whose turn it is does not rest on the command word, and no turn reads an idle one. -/
theorem idleCommandWordNeverRead : Obligations.IdleCommandWordNeverRead := by
  intro s t w hb ht
  rw [step_eq_nextTurn] at ht
  have hdrop : sameButIdleCmd (dropTurn s) (dropTurn (withCmd w s)) := sameButIdleCmd_of_idle w hb
  obtain ⟨_, ht', w', rfl, hw'⟩ := takeTurn_sameButIdleCmd hdrop ht
  exact ⟨w', (step_eq_nextTurn _).trans ht', hw'⟩

end Sys2Proof.Machine

end

section

/-! PROOFS. The register window: its map (R31, R81), the layout of STATUS (R36, R37) and what a write to a register
stores, reads back and leaves unchanged (R34, R36, R38-R42, R50, R57, R82). -/

namespace Sys2Proof

/-! ## The map -/

/-- The ranges of offsets that hold a register (20_memory.md R81). -/
theorem regOfIndex_isSome {n : Nat} (h : n < 20 ∨ (24 ≤ n ∧ n < 32) ∨ (64 ≤ n ∧ n < 96)) :
    (regOfIndex n).isSome = true := by
  have hall : ∀ m : Fin 96, m.val < 20 ∨ (24 ≤ m.val ∧ m.val < 32) ∨ (64 ≤ m.val ∧ m.val < 96) →
      (regOfIndex m.val).isSome = true := by decide
  exact hall ⟨n, by omega⟩ h

/-- The offset of a register is a multiple of 4 in the range of its kind. -/
theorem Reg.offset_range (r : Reg) : r.offset % 4 = 0 ∧
    (r.offset < 0x050 ∨ (0x060 ≤ r.offset ∧ r.offset < 0x080) ∨ (0x100 ≤ r.offset ∧ r.offset < 0x180)) := by
  cases r
  case digest k => simp only [Reg.offset]; omega
  case key k => simp only [Reg.offset]; omega
  all_goals decide

theorem Reg.offset_digest_range (r : Reg) : 0x060 ≤ r.offset ∧ r.offset < 0x080 ↔ ∃ k, r = .digest k := by
  cases r <;> simp [Reg.offset] <;> omega

theorem Reg.offset_key_range (r : Reg) : 0x100 ≤ r.offset ∧ r.offset < 0x180 ↔ ∃ k, r = .key k := by
  cases r <;> simp [Reg.offset] <;> omega

theorem Reg.offset_key (k : Fin 32) : (Reg.key k).offset = 0x100 + 4 * k.val := rfl

theorem Reg.offset_injective : Function.Injective Reg.offset := by
  intro r q h
  have hidx := regOfIndex_offset r
  rw [h, regOfIndex_offset q] at hidx
  exact (Option.some.inj hidx).symm

/-- Settles O30. -/
theorem registerMapIsComplete : Obligations.RegisterMapIsComplete := by
  refine ⟨fun off size => ⟨fun h => ?_, fun ⟨hsize, h4, hin⟩ => ?_⟩, fun off size r => admitted_eq_some,
    fun r => ⟨r.offset_digest_range, r.offset_key_range⟩, fun r q => (Reg.offset_injective ·)⟩
  · obtain ⟨r, hr⟩ := Option.isSome_iff_exists.mp h
    obtain ⟨hsize, rfl⟩ := admitted_eq_some.mp hr
    exact ⟨hsize, r.offset_range⟩
  · rw [admitted, if_pos ⟨hsize, h4⟩]
    exact regOfIndex_isSome (by omega)

namespace Machine

/-! ## STATUS -/

/-- Settles O36: a bit or a field of the concatenation is looked up part by part, the lowest first. -/
theorem statusWordLayout : Obligations.StatusWordLayout := by
  intro s
  refine ⟨?_, ?_, ?_, ?_, ?bits4_7, ?errCode, ?lastOp, ?_, ?_, ?_, ?_, ?bits20_31⟩
  case bits4_7 | errCode | lastOp | bits20_31 =>
    simp (disch := decide) only [statusWord, BitVec.extractLsb'_append_eq_of_le,
      BitVec.extractLsb'_append_eq_of_add_le]
    simp
  all_goals
    simp only [statusWord, flagBit, BitVec.getLsbD_append]
    simp

/-- Settles O40: clearing where the bit is 1 is keeping where it is 0. -/
theorem statusWriteClearsEvents : Obligations.StatusWriteClearsEvents := by
  have hclear : ∀ b c : Bool, (b && !c) = if c then false else b := by decide
  intro s v hr
  rw [show 0x010 = Reg.offset .status from rfl, busWrite_register hr]
  simp only [writeReg, clearEvents, hclear]

/-! ## Writes to the operand registers -/

/-- The low n bits of a word, the others 0, are the word under a mask of n ones. -/
theorem zero_append_extractLsb' (m n : Nat) (v : BitVec (m + n)) :
    0#m ++ v.extractLsb' 0 n = v &&& BitVec.ofNat (m + n) (2 ^ n - 1) := by
  apply BitVec.eq_of_toNat_eq
  have hmask : (2 ^ n - 1) % 2 ^ (m + n) = 2 ^ n - 1 :=
    Nat.mod_eq_of_lt (Nat.lt_of_lt_of_le (Nat.sub_lt (Nat.two_pow_pos n) Nat.one_pos)
      (Nat.pow_le_pow_right (by decide) (Nat.le_add_left n m)))
  simp [BitVec.toNat_and, hmask, Nat.and_two_pow_sub_one_eq_mod, BitVec.toNat_append]

section

variable (r : Reg) (v : Word) (o : Operands)

@[simp] theorem writeOperand_digits :
    (writeOperand r v o).digits = if r = .cfg then v.extractLsb' 0 4 else o.digits := by
  cases r <;> simp [writeOperand]
@[simp] theorem writeOperand_alg :
    (writeOperand r v o).alg = if r = .cfg then v.extractLsb' 4 2 else o.alg := by
  cases r <;> simp [writeOperand]
@[simp] theorem writeOperand_timeStep :
    (writeOperand r v o).timeStep = if r = .step then v else o.timeStep := by
  cases r <;> simp [writeOperand]
@[simp] theorem writeOperand_keyLen :
    (writeOperand r v o).keyLen = if r = .keyLen then v.extractLsb' 0 8 else o.keyLen := by
  cases r <;> simp [writeOperand]
@[simp] theorem writeOperand_counterHi :
    (writeOperand r v o).counterHi = if r = .counterHi then v else o.counterHi := by
  cases r <;> simp [writeOperand]
@[simp] theorem writeOperand_counterLo :
    (writeOperand r v o).counterLo = if r = .counterLo then v else o.counterLo := by
  cases r <;> simp [writeOperand]
@[simp] theorem writeOperand_timeHi :
    (writeOperand r v o).timeHi = if r = .timeHi then v else o.timeHi := by
  cases r <;> simp [writeOperand]
@[simp] theorem writeOperand_timeLo :
    (writeOperand r v o).timeLo = if r = .timeLo then v else o.timeLo := by
  cases r <;> simp [writeOperand]

end

theorem writeOperand_key {r : Reg} (hr : ∀ k, r ≠ .key k) (v : Word) (o : Operands) :
    (writeOperand r v o).key = o.key := by
  cases r
  case key k => exact absurd rfl (hr k)
  all_goals rfl

/-- The state with other operand registers. -/
def withOps (o : Operands) (s : State) : State := { s with ops := o }

theorem busRead_withOps {s : State} (hr : s.rst = false) (o : Operands) (r : Reg) :
    busRead r.offset 32 (withOps o s) = .ok (readReg r (withOps o s)) :=
  busRead_register (s := withOps o s) hr r

/-- An operand write changes what no other register reads. -/
theorem readReg_writeOperand_of_ne {q r : Reg} (hq : q ≠ r) (v : Word) (s : State) :
    readReg q (withOps (writeOperand r v s.ops) s) = readReg q s := by
  cases q
  case cfg | step | keyLen | counterHi | counterLo | timeHi | timeLo =>
    simp [readReg, cfgWord, withOps, hq.symm]
  all_goals rfl

theorem readReg_writeReg_ctrl (v : Word) (s : State) :
    readReg .ctrl (writeReg .ctrl v s) = v &&& 0x00000001#32 := by
  have hbit : flagBit (v.getLsbD 0) = v.extractLsb' 0 1 := by
    ext i hi
    simp [flagBit, Nat.lt_one_iff.mp hi]
  simp only [readReg, writeReg, hbit]
  exact zero_append_extractLsb' 31 1 v

/-- The operand registers that can be read back, each with its bits that are not reserved (R38-R42). -/
def operandMasks : List (Reg × Word) :=
  [(.cfg, 0x0000003F#32), (.step, 0xFFFFFFFF#32), (.keyLen, 0x000000FF#32), (.counterHi, 0xFFFFFFFF#32),
    (.counterLo, 0xFFFFFFFF#32), (.timeHi, 0xFFFFFFFF#32), (.timeLo, 0xFFFFFFFF#32)]

theorem cfgWord_writeOperand (v : Word) (s : State) :
    cfgWord (withOps (writeOperand .cfg v s.ops) s) = v &&& 0x0000003F#32 := by
  have hfields : v.extractLsb' 4 2 ++ v.extractLsb' 0 4 = v.extractLsb' 0 6 :=
    BitVec.extractLsb'_append_extractLsb'_eq_extractLsb' rfl
  calc cfgWord (withOps (writeOperand .cfg v s.ops) s)
      = 0#26 ++ (v.extractLsb' 4 2 ++ v.extractLsb' 0 4) := BitVec.append_assoc
    _ = v &&& 0x0000003F#32 := by
        rw [hfields]
        exact zero_append_extractLsb' 26 6 v

/-- A register reads back the bits stored to it, its reserved bits 0. -/
theorem readReg_writeOperand_same {p : Reg × Word} (hp : p ∈ operandMasks) (v : Word) (s : State) :
    readReg p.1 (withOps (writeOperand p.1 v s.ops) s) = v &&& p.2 := by
  have hones : v = v &&& 0xFFFFFFFF#32 := BitVec.and_allOnes.symm
  simp only [operandMasks, List.mem_cons, List.not_mem_nil, or_false] at hp
  rcases hp with rfl | rfl | rfl | rfl | rfl | rfl | rfl
  · exact cfgWord_writeOperand v s
  · exact hones
  · exact zero_append_extractLsb' 24 8 v
  all_goals exact hones

/-- They are operand registers and none is a key register. -/
theorem operandMasks_kind : ∀ p ∈ operandMasks,
    isOperandOrCmd p.1 = true ∧ p.1 ≠ .cmd ∧ ∀ k, p.1 ≠ .key k := by
  decide

/-- An idle write to an operand register is the operand write (R82). -/
theorem writeReg_operand {r : Reg} (hop : isOperandOrCmd r = true) (hcmd : r ≠ .cmd) {s : State}
    (hb : s.busy = false) (v : Word) : writeReg r v s = withOps (writeOperand r v s.ops) s := by
  cases r <;> simp [writeReg, withOps, isOperandOrCmd, hb] at hop hcmd ⊢

/-- Settles O37. -/
theorem writesReadBackWithoutReservedBits : Obligations.WritesReadBackWithoutReservedBits := by
  constructor
  · intro s v hr hb p hp
    obtain ⟨hop, hcmd, hkey⟩ := operandMasks_kind p hp
    refine ⟨withOps (writeOperand p.1 v s.ops) s, ?_, ?_, rfl, writeOperand_key hkey v s.ops,
      fun q hq => readReg_writeOperand_of_ne hq v s⟩
    · rw [busWrite_register hr, writeReg_operand hop hcmd hb]
    · rw [busRead_withOps hr, readReg_writeOperand_same hp]
  · intro s v hr
    refine ⟨writeReg .ctrl v s, busWrite_register hr .ctrl v, ?_, rfl⟩
    rw [← readReg_writeReg_ctrl v s]
    exact busRead_register (s := writeReg .ctrl v s) hr .ctrl

/-! ## Writes to the key buffer -/

/-- Settles O38, byte by byte. -/
theorem keyWritePacksBigEndian : Obligations.KeyWritePacksBigEndian := by
  intro s k v hr hb
  have hwrite := writeReg_operand (r := .key k) rfl nofun hb v
  have hread := busRead_withOps hr (writeOperand (.key k) v s.ops) (.key k)
  rw [← Reg.offset_key]
  refine ⟨_, hwrite ▸ busWrite_register hr (.key k) v, rfl, ?_⟩
  simp only [withOps, writeOperand, byteAt_setWordAt s.ops.key k.val v (by omega)]
  refine ⟨by simp, by simp, by simp, by simp, fun i hi => ?_, hread⟩
  rw [if_neg (by omega), if_neg (by omega), if_neg (by omega), if_neg (by omega)]

end Machine

end Sys2Proof

end

section

/-! PROOFS. The answer to every access of a host out of reset: the fault of one that is not admitted (20_memory.md
R84), what a register reads (R85, R87), the writes that have no effect (R83, R90), and that no admitted access ends
a run (R82). -/

namespace Sys2Proof

/-! ## Which accesses are admitted -/

/-- What the window does not admit is another width, another alignment or a reserved offset (R81, R82). -/
theorem admitted_eq_none_of_reserved {off size : Nat}
    (h : size ≠ 32 ∨ off % 4 ≠ 0 ∨ (0x050 ≤ off ∧ off < 0x060) ∨ (0x080 ≤ off ∧ off < 0x100) ∨
      0x180 ≤ off) :
    admitted off size = none := by
  cases ha : admitted off size with
  | none => rfl
  | some r =>
    obtain ⟨hsize, rfl⟩ : size = 32 ∧ off = r.offset := admitted_eq_some.mp ha
    have hrange := r.offset_range
    omega

/-- An access that passes the static check is one the window admits (R82). -/
theorem offset_of_accessWf {off size : Nat} (h : accessWf off size = true) :
    ∃ r : Reg, size = 32 ∧ off = r.offset := by
  simp only [accessWf, offsetInUse, Config.regBits, Bool.and_eq_true, Bool.or_eq_true, beq_iff_eq,
    decide_eq_true_eq] at h
  obtain ⟨r, hr⟩ := Option.isSome_iff_exists.mp ((registerMapIsComplete.1 off size).mpr (by omega))
  exact ⟨r, admitted_eq_some.mp hr⟩

namespace Machine

/-- A statement whose access the window does not admit faults the host program (R84). -/
theorem hostStatement_of_not_admitted {s : State} {st : Stmt} {off size x : Nat} {v : Word} (hr : s.rst = false)
    (ha : admitted off size = none) (hst : st = .wr off size v ∨ st = .rd off size x) :
    hostStatement st s = .fault .busError := by
  rcases hst with rfl | rfl
  · simp only [hostStatement, busWrite_of_not_admitted v hr ha]
  · simp only [hostStatement, busRead_of_not_admitted hr ha]

/-- Settles O33: the statement is a write or a read of an offset that no register has. -/
theorem unadmittedAccessFaults : Obligations.UnadmittedAccessFaults := by
  intro s rest off size x v hturns hr hhalt _ hoff hprog
  obtain ⟨st, hst, hp⟩ : ∃ st, (st = .wr off size v ∨ st = .rd off size x) ∧
      s.host.prog[s.host.pc]? = some st := by
    rcases hprog with hp | hp
    · exact ⟨_, .inl rfl, hp⟩
    · exact ⟨_, .inr rfl, hp⟩
  calc step s = hostTurn { s with turns := rest } := step_turn hturns
    _ = hostStatement st { s with turns := rest } := hostTurn_running hhalt hp
    _ = .fault .busError := hostStatement_of_not_admitted hr (admitted_eq_none_of_reserved hoff) hst

/-! ## What a register reads -/

/-- A field alone in its register reads with 0 above it (R85). -/
theorem zero_append_eq_setWidth (m : Nat) {n : Nat} (x : BitVec n) : 0#m ++ x = x.setWidth (m + n) := by
  apply BitVec.eq_of_toNat_eq
  have hx : x.toNat < 2 ^ (m + n) := Nat.lt_of_lt_of_le x.isLt (Nat.pow_le_pow_right (by decide) (by omega))
  simp [BitVec.toNat_append, Nat.mod_eq_of_lt hx]

theorem readReg_ctrl (s : State) : readReg .ctrl s = BitVec.ofNat 32 s.irqEn.toNat := by
  cases h : s.irqEn <;> simp only [readReg, flagBit, h] <;> rfl

/-- CFG as a number: ALG stands above the four bits of DIGITS (R38). -/
theorem cfgWord_eq_ofNat (s : State) :
    cfgWord s = BitVec.ofNat 32 (s.ops.alg.toNat * 16 + s.ops.digits.toNat) := by
  apply BitVec.eq_of_toNat_eq
  have halg := s.ops.alg.isLt
  have hdigits := s.ops.digits.isLt
  have hfields : (s.ops.alg ++ s.ops.digits).toNat = s.ops.alg.toNat * 16 + s.ops.digits.toNat := by
    rw [BitVec.toNat_append, ← Nat.shiftLeft_add_eq_or_of_lt hdigits, Nat.shiftLeft_eq]
  rw [cfgWord, BitVec.append_assoc, zero_append_eq_setWidth]
  simp [hfields]

theorem byteAt_eq_getElem {n : Nat} (b : Vector Byte n) {i : Nat} (h : i < n) : byteAt b i = b[i] := by
  simp [byteAt, h]

/-- A word of a buffer is its four bytes, the first the highest (R87). -/
theorem wordAt_eq_be32 {n : Nat} (b : Vector Byte n) (k : Nat) (h : 4 * k + 3 < n) :
    wordAt b k = be32 b[4 * k] b[4 * k + 1] b[4 * k + 2] b[4 * k + 3] := by
  simp (disch := omega) only [wordAt, byteAt_eq_getElem]

/-- The value a register's rule gives is what an admitted read of it returns. -/
theorem busRead_eq_of_readReg {s : State} (hr : s.rst = false) (r : Reg) {w : Word} (h : readReg r s = w) :
    busRead r.offset 32 s = .ok w := by
  rw [busRead_register hr, h]

/-- Settles O35. -/
theorem readsReturnTheRegister : Obligations.ReadsReturnTheRegister := by
  intro s hr
  have read := @busRead_eq_of_readReg s hr
  exact ⟨read .id rfl, read .param rfl, read .ctrl (readReg_ctrl s), read .cmd rfl, read .status rfl,
    read .cfg (cfgWord_eq_ofNat s), read .step rfl, read .keyLen (zero_append_eq_setWidth 24 _),
    read .counterHi rfl, read .counterLo rfl, read .timeHi rfl, read .timeLo rfl,
    read .msgHi (wordAt_eq_be32 s.res.msg 0 (by decide)), read .msgLo (wordAt_eq_be32 s.res.msg 1 (by decide)),
    read .dlen (zero_append_eq_setWidth 24 _), read .trunc (zero_append_eq_setWidth 1 _), read .code rfl,
    read .codeStr0 (wordAt_eq_be32 s.res.str 0 (by decide)), read .codeStr1 (wordAt_eq_be32 s.res.str 1 (by decide)),
    read .codeLen (zero_append_eq_setWidth 28 _),
    fun k => read (.digest k) (wordAt_eq_be32 s.res.dig k.val (by omega)), fun k => read (.key k) rfl⟩

/-! ## Writes without effect -/

/-- The registers that no host writes, busy or not (R82, R90). -/
theorem writeReg_readOnly {r : Reg}
    (h : r ∈ [Reg.id, .param, .msgHi, .msgLo, .dlen, .trunc, .code, .codeStr0, .codeStr1, .codeLen] ∨
      ∃ k, r = .digest k) (v : Word) (s : State) : writeReg r v s = s := by
  cases r <;> simp at h <;> rfl

/-- Settles O39. -/
theorem readOnlyWritesHaveNoEffect : Obligations.ReadOnlyWritesHaveNoEffect := by
  intro s v r hr hro
  rw [busWrite_register hr, writeReg_readOnly hro]

/-- A busy core ignores a write to CMD and to an operand register (R83). -/
theorem writeReg_of_busy {r : Reg} (hop : isOperandOrCmd r = true) {s : State} (hb : s.busy = true) (v : Word) :
    writeReg r v s = ignoreWrite s := by
  cases r <;> simp [isOperandOrCmd, writeReg, hb] at hop ⊢

/-- Settles O42. -/
theorem busyWritesAreIgnored : Obligations.BusyWritesAreIgnored := by
  intro s v hr hb
  refine ⟨fun r hop => ?_, busWrite_register hr .ctrl v, busWrite_register hr .status v⟩
  rw [busWrite_register hr, writeReg_of_busy hop hb]
  rfl

/-! ## No admitted access ends a run -/

/-- A well-formed statement is executed: its access is one the window admits. -/
theorem hostStatement_of_wellFormed {s : State} {st : Stmt} {n : Nat} (hr : s.rst = false)
    (hst : st.wellFormed n = true) : ∃ t, hostStatement st s = .next t := by
  cases st with
  | wr off size v =>
    obtain ⟨r, rfl, rfl⟩ := offset_of_accessWf hst
    simp only [hostStatement, busWrite_register hr]
    exact ⟨_, rfl⟩
  | rd off size x =>
    obtain ⟨r, rfl, rfl⟩ := offset_of_accessWf hst
    simp only [hostStatement, busRead_register hr]
    exact ⟨_, rfl⟩
  | bnz x mask target =>
    simp only [hostStatement]
    split <;> exact ⟨_, rfl⟩
  | halt => exact ⟨_, rfl⟩

/-- The turn of a host whose statements are well formed goes on. -/
theorem hostTurn_of_wellFormed {s : State} {n : Nat} (hr : s.rst = false)
    (hprog : ∀ st ∈ s.host.prog, st.wellFormed n = true) : ∃ t, hostTurn s = .next t := by
  cases hh : s.host.halted with
  | true => exact ⟨s, hostTurn_halted hh⟩
  | false =>
    cases hp : s.host.prog[s.host.pc]? with
    | none => exact ⟨s, hostTurn_pastEnd hp⟩
    | some st =>
      rw [hostTurn_running hh hp]
      exact hostStatement_of_wellFormed hr (hprog st (List.mem_of_getElem? hp))

/-- No turn of the host changes its program. -/
theorem hostTurn_keeps_prog {s t : State} (h : hostTurn s = .next t) : t.host.prog = s.host.prog := by
  rcases hostTurn_next_cases h with rfl | ⟨r, v, -, rfl⟩ | ⟨r, x, -, rfl⟩ | ⟨pc, rfl⟩ | rfl
  case inr.inl =>
    obtain ⟨-, hhost, -⟩ := writeReg_keeps r v s
    simp [hhost]
  all_goals rfl

/-- A command in progress completes, whatever its word, and the host does not see it end (R141, R145). -/
theorem completion_next (s : State) : ∃ t, completion s = .next t ∧ t.host = s.host := by
  rcases completion_cases s with ⟨e, -, h⟩ | ⟨i, s', -, heff, h⟩
  · exact ⟨_, h, rfl⟩
  · obtain ⟨-, -, -, -, hhost, -⟩ := heff.keeps
    exact ⟨_, h, hhost⟩

/-- Whoever's turn it is, out of reset it goes on and keeps a host program of well-formed statements. -/
theorem takeTurn_of_wellFormed {s : State} {n : Nat} (hr : s.rst = false)
    (hprog : ∀ st ∈ s.host.prog, st.wellFormed n = true) (turn : Turn) :
    ∃ t, takeTurn turn s = .next t ∧ t.host.prog = s.host.prog := by
  cases turn with
  | host =>
    obtain ⟨t, ht⟩ := hostTurn_of_wellFormed hr hprog
    exact ⟨t, ht, hostTurn_keeps_prog ht⟩
  | core =>
    simp only [takeTurn, coreTurn]
    split
    · obtain ⟨t, ht, hhost⟩ := completion_next s
      exact ⟨t, ht, congrArg HostAgent.prog hhost⟩
    · exact ⟨s, rfl, rfl⟩
  | assertRst => exact ⟨_, rfl, rfl⟩
  | releaseRst => exact ⟨s, by simp [takeTurn, resetTurn, hr], rfl⟩

/-- Settles O54: a step is a turn. -/
theorem admittedAccessesNeverFault : Obligations.AdmittedAccessesNeverFault := by
  intro s hr hprog
  rw [step_eq_nextTurn]
  exact takeTurn_of_wellFormed (s := dropTurn s) hr hprog (nextTurn s)

end Machine

end Sys2Proof

end

section

/-! PROOFS. What a host cannot change while a command is in progress, and that a completion rests on nothing else
(20_memory.md R83, R85, R89, 40_command_execution.md R142). -/

namespace Sys2Proof.Machine

/-! ## The part of a busy core that is held -/

/-- The state with all that a host can change while a command is in progress put out of sight: the interrupt enable,
the event bits, the host's own state and the schedule. -/
def heldPart (s : State) : State :=
  { s with
    irqEn := false
    status := { s.status with done := false, err := false, wign := false }
    host := HostAgent.empty
    turns := [] }

/-- No write to a busy core changes the held part (R83). -/
theorem heldPart_writeReg {s : State} (hb : s.busy = true) (r : Reg) (v : Word) :
    heldPart (writeReg r v s) = heldPart s := by
  rcases writeReg_cases r v s with ⟨-, h⟩ | ⟨-, h⟩ | h | ⟨-, h⟩ | ⟨-, hidle, -⟩ | ⟨hidle, -⟩
  case inr.inr.inr.inr.inl | inr.inr.inr.inr.inr => simp [hb] at hidle
  all_goals exact (congrArg heldPart h).trans rfl

/-- No turn of the host changes the held part of a busy core, or the schedule. -/
theorem hostTurn_keeps_heldPart {s t : State} (hb : s.busy = true) (h : hostTurn s = .next t) :
    heldPart t = heldPart s ∧ t.turns = s.turns := by
  rcases hostTurn_next_cases h with rfl | ⟨r, v, -, rfl⟩ | ⟨r, x, -, rfl⟩ | ⟨pc, rfl⟩ | rfl
  case inr.inl =>
    obtain ⟨-, -, hturns⟩ := writeReg_keeps r v s
    exact ⟨heldPart_writeReg hb r v, hturns⟩
  all_goals exact ⟨rfl, rfl⟩

/-- A step that is the host's uses up its turn and keeps the held part. -/
theorem step_host_keeps_heldPart {s t : State} {rest : List Turn} (hb : s.busy = true)
    (hturns : s.turns = .host :: rest) (h : step s = .next t) : heldPart t = heldPart s ∧ t.turns = rest := by
  rw [step_turn hturns] at h
  exact hostTurn_keeps_heldPart (s := { s with turns := rest }) hb h

/-- A run of one step more is a step and the run after it. -/
theorem run_succ_eq_next {n : Nat} {s t : State} (h : Sys2Proof.core.run (n + 1) s = .next t) :
    ∃ u, step s = .next u ∧ Sys2Proof.core.run n u = .next t := by
  simp only [Host.Core.run] at h
  split at h
  case h_1 u hu => exact ⟨u, hu, h⟩
  all_goals cases h

/-- Any number of turns of the host keeps the held part of a busy core (R142). -/
theorem run_host_keeps_heldPart {n : Nat} {s t : State} {rest : List Turn} (hb : s.busy = true)
    (hturns : s.turns = List.replicate n .host ++ rest) (h : Sys2Proof.core.run n s = .next t) :
    heldPart t = heldPart s ∧ t.turns = rest := by
  induction n generalizing s with
  | zero => cases h; exact ⟨rfl, hturns⟩
  | succ n ih =>
    obtain ⟨u, hu, hrun⟩ := run_succ_eq_next h
    obtain ⟨hheld, huturns⟩ := step_host_keeps_heldPart hb hturns hu
    have hbusy : u.busy = s.busy := (congrArg State.busy hheld :)
    obtain ⟨ht, hrest⟩ := ih (hbusy.trans hb) huturns hrun
    exact ⟨ht.trans hheld, hrest⟩

/-! ## A completion reads the held part alone -/

section

variable (s : State)

@[simp] theorem heldPart_ops : (heldPart s).ops = s.ops := rfl
@[simp] theorem heldPart_cmd : (heldPart s).cmd = s.cmd := rfl
@[simp] theorem heldPart_msgValid : (heldPart s).status.msgValid = s.status.msgValid := rfl
@[simp] theorem heldPart_digestValid : (heldPart s).status.digestValid = s.status.digestValid := rfl
@[simp] theorem heldPart_truncValid : (heldPart s).status.truncValid = s.status.truncValid := rfl
@[simp] theorem digitsOutOfBounds_heldPart : digitsOutOfBounds (heldPart s) = digitsOutOfBounds s := rfl
@[simp] theorem keyLenBad_heldPart : keyLenBad (heldPart s) = keyLenBad s := rfl
@[simp] theorem counterOf_heldPart : counterOf (heldPart s) = counterOf s := rfl
@[simp] theorem timestampOf_heldPart : timestampOf (heldPart s) = timestampOf s := rfl
@[simp] theorem secretOf_heldPart : secretOf (heldPart s) = secretOf s := rfl
@[simp] theorem messageOf_heldPart : messageOf (heldPart s) = messageOf s := rfl
@[simp] theorem digestOf_heldPart : digestOf (heldPart s) = digestOf s := rfl

end

/-- A command makes the same checks and the same writes in the held part. -/
theorem exec_heldPart (i : Instr) (s : State) :
    mapNext heldPart (exec i (heldPart s)) = mapNext heldPart (exec i s) := by
  cases i with
  | nop | encode | zeroize => rfl
  | tencode =>
    simp only [exec, execTencode, timestampOf_heldPart, heldPart_ops]
    cases timeCounter (timestampOf s) s.ops.timeStep <;> rfl
  | hmac =>
    simp only [exec, execHmac, heldPart_ops, secretOf_heldPart, messageOf_heldPart]
    cases selectAlg s.ops.alg with
    | none => rfl
    | some a =>
      cases hk : keyLenBad s <;> cases hv : s.status.msgValid <;>
        simp only [keyLenBad_heldPart, heldPart_msgValid, hk, hv] <;> rfl
  | trunc =>
    cases hv : s.status.digestValid <;>
      simp only [exec, execTrunc, heldPart_digestValid, digestOf_heldPart, hv] <;> rfl
  | format =>
    cases hd : digitsOutOfBounds s <;> cases hv : s.status.truncValid <;>
      simp only [exec, execFormat, digitsOutOfBounds_heldPart, heldPart_truncValid, hd, hv] <;> rfl
  | hotp =>
    cases hd : digitsOutOfBounds s <;> cases hk : keyLenBad s <;>
      simp only [exec, execHotp, digitsOutOfBounds_heldPart, keyLenBad_heldPart, counterOf_heldPart,
        hd, hk] <;> rfl
  | totp =>
    cases hd : digitsOutOfBounds s with
    | true => simp only [exec, execTotp, digitsOutOfBounds_heldPart, hd]; rfl
    | false =>
      cases hk : keyLenBad s
      all_goals
        simp only [exec, execTotp, digitsOutOfBounds_heldPart, keyLenBad_heldPart, timestampOf_heldPart,
          heldPart_ops, hd, hk]
        cases timeCounter (timestampOf s) s.ops.timeStep with
        | error e => rfl
        | ok c => cases selectAlg s.ops.alg <;> rfl

/-- A completion does the same in the held part, an illegal word's included. -/
theorem completion_heldPart (s : State) :
    mapNext heldPart (completion (heldPart s)) = mapNext heldPart (completion s) := by
  simp only [completion, heldPart_cmd]
  cases decode s.cmd with
  | none => rfl
  | some i => exact exec_heldPart i s

/-- From one held part, completions lead to one held part (R142). -/
theorem completion_of_heldPart_eq {s t : State} (h : heldPart t = heldPart s) :
    ∃ u v, completion s = .next u ∧ completion t = .next v ∧ heldPart v = heldPart u := by
  obtain ⟨u, hu, -⟩ := completion_next s
  obtain ⟨v, hv, -⟩ := completion_next t
  have hmap : mapNext heldPart (completion t) = mapNext heldPart (completion s) := by
    rw [← completion_heldPart t, h, completion_heldPart s]
  rw [hu, hv] at hmap
  exact ⟨u, v, hu, hv, Host.Outcome.next.inj hmap⟩

/-- Settles O43: the host keeps the held part, and the completion rests on it alone. -/
theorem operandsHeldUntilCompletion : Obligations.OperandsHeldUntilCompletion := by
  intro n s t rest hb hr hturns hrun
  obtain ⟨hheld, hrest⟩ := run_host_keeps_heldPart hb hturns hrun
  obtain ⟨u, v, hu, hv, huv⟩ := completion_of_heldPart_eq hheld
  have hbusy : t.busy = s.busy := (congrArg State.busy hheld :)
  have hrst : t.rst = s.rst := (congrArg State.rst hheld :)
  exact ⟨(congrArg State.ops hheld :), (congrArg State.res hheld :), (congrArg State.cmd hheld :), hbusy.trans hb,
    hrst.trans hr, hrest, u, v, hu, hv, (congrArg State.ops huv :), (congrArg State.res huv :),
    (congrArg (fun w => w.status.errCode) huv :)⟩

end Sys2Proof.Machine

end

section

/-! PROOFS. Command words: the decoder read off the two fields of a word, its agreement with the encoder and with the
static check (R110, R113-R116), and the completion of an illegal word (R114, R115). -/

namespace Sys2Proof

/-! ## The fields of a word -/

/-- An opcode is a command's or one of the reserved 0x9 to 0xF (R113, R114). -/
theorem opcode_or_reserved (op : BitVec 4) : (∃ i, op = opcode i) ∨ 9 ≤ op.toNat := by
  have hassigned : ∀ op : BitVec 4, op.toNat < 9 → ∃ i ∈ [Instr.nop, .encode, .tencode, .hmac, .trunc, .format,
      .hotp, .totp, .zeroize], op = opcode i := by decide
  rcases Nat.lt_or_ge op.toNat 9 with h | h
  · obtain ⟨i, -, hi⟩ := hassigned op h
    exact .inl ⟨i, hi⟩
  · exact .inr h

/-- A word is RSV above OP (R110). -/
theorem reserved_append_op (w : Word) : w.extractLsb' 4 28 ++ w.extractLsb' 0 4 = w :=
  (BitVec.extractLsb'_append_extractLsb'_eq_extractLsb' rfl).trans BitVec.extractLsb'_eq_self

/-- The word with RSV zero and the opcode of a command is that command's (R113). -/
theorem eq_encode_of_fields {w : Word} {i : Instr} (hrsv : w.extractLsb' 4 28 = 0#28)
    (hop : w.extractLsb' 0 4 = opcode i) : w = encode i := by
  rw [← reserved_append_op w, hrsv, hop, encode]

/-- The opcode of a command is none of the reserved ones. -/
theorem opcode_toNat_lt (i : Instr) : (opcode i).toNat < 9 := by
  cases i <;> decide

theorem encode_toNat_lt (i : Instr) : (encode i).toNat < 9 := by
  cases i <;> decide

/-! ## The decoder -/

@[simp] theorem decodeWord_encode (i : Instr) : decodeWord (encode i) = .command i := by
  cases i <;> rfl

theorem decodeWord_reservedBits {w : Word} (hrsv : w.extractLsb' 4 28 ≠ 0#28) : decodeWord w = .reservedBits :=
  if_pos hrsv

theorem decodeWord_reservedOpcode {w : Word} (hrsv : w.extractLsb' 4 28 = 0#28)
    (hop : 9 ≤ (w.extractLsb' 0 4).toNat) : decodeWord w = .reservedOpcode := by
  rw [decodeWord, if_neg (not_not_intro hrsv)]
  split
  case h_10 => rfl
  all_goals omega

/-- Every word is illegal by its reserved bits, a command's, or illegal by its opcode (R113-R115). -/
theorem word_cases (w : Word) :
    w.extractLsb' 4 28 ≠ 0#28 ∨ (∃ i, w = encode i) ∨
      (w.extractLsb' 4 28 = 0#28 ∧ 9 ≤ (w.extractLsb' 0 4).toNat) := by
  by_cases hrsv : w.extractLsb' 4 28 = 0#28
  · rcases opcode_or_reserved (w.extractLsb' 0 4) with ⟨i, hi⟩ | hop
    · exact .inr (.inl ⟨i, eq_encode_of_fields hrsv hi⟩)
    · exact .inr (.inr ⟨hrsv, hop⟩)
  · exact .inl hrsv

theorem decodeWord_eq_reservedBits_iff (w : Word) :
    decodeWord w = .reservedBits ↔ w.extractLsb' 4 28 ≠ 0#28 := by
  rcases word_cases w with hrsv | ⟨i, rfl⟩ | ⟨hrsv, hop⟩
  · simp [decodeWord_reservedBits hrsv, hrsv]
  · simp
  · simp [decodeWord_reservedOpcode hrsv hop, hrsv]

theorem decodeWord_eq_reservedOpcode_iff (w : Word) :
    decodeWord w = .reservedOpcode ↔ w.extractLsb' 4 28 = 0#28 ∧ 9 ≤ (w.extractLsb' 0 4).toNat := by
  rcases word_cases w with hrsv | ⟨i, rfl⟩ | ⟨hrsv, hop⟩
  · simp [decodeWord_reservedBits hrsv, hrsv]
  · simp [opcode_toNat_lt]
  · exact iff_of_true (decodeWord_reservedOpcode hrsv hop) ⟨hrsv, hop⟩

@[simp] theorem decode_encode (i : Instr) : decode (encode i) = some i := by
  rw [decode, decodeWord_encode]

theorem decode_reservedOpcode {w : Word} (hrsv : w.extractLsb' 4 28 = 0#28)
    (hop : 9 ≤ (w.extractLsb' 0 4).toNat) : decode w = none := by
  rw [decode, decodeWord_reservedOpcode hrsv hop]

/-- An illegal word, by its reserved bits or its opcode, is no command (R114, R115). -/
theorem decode_illegal {w : Word} (h : w.extractLsb' 4 28 ≠ 0#28 ∨ 9 ≤ (w.extractLsb' 0 4).toNat) :
    decode w = none := by
  by_cases hrsv : w.extractLsb' 4 28 = 0#28
  · exact decode_reservedOpcode hrsv (h.resolve_left (not_not_intro hrsv))
  · exact decode_reserved hrsv

/-- A word decodes to a command exactly when it is that command's word (R113, R116). -/
theorem decode_eq_some_iff {w : Word} {i : Instr} : decode w = some i ↔ encode i = w := by
  refine ⟨fun h => ?_, fun h => h ▸ decode_encode i⟩
  rcases word_cases w with hrsv | ⟨j, rfl⟩ | ⟨hrsv, hop⟩
  · simp [decode_reserved hrsv] at h
  · rw [Option.some.inj ((decode_encode j).symm.trans h)]
  · simp [decode_reservedOpcode hrsv hop] at h

/-! ## The static check of a word -/

theorem reservedBitsZero_iff (w : Word) : reservedBitsZero w = true ↔ w.extractLsb' 4 28 = 0#28 := by
  have hrsv : (w.extractLsb' 4 28).toNat = w.toNat / 16 := by
    rw [BitVec.extractLsb'_toNat, Nat.shiftRight_eq_div_pow]
    omega
  rw [reservedBitsZero, beq_iff_eq, ← hrsv, ← BitVec.toNat_inj, BitVec.toNat_zero]

theorem opcodeAssigned_iff (w : Word) : opcodeAssigned w = true ↔ (w.extractLsb' 0 4).toNat < 9 := by
  simp [opcodeAssigned, Nat.lt_succ_iff]

theorem commandWordWf_iff (w : Word) :
    commandWordWf w = true ↔ w.extractLsb' 4 28 = 0#28 ∧ (w.extractLsb' 0 4).toNat < 9 := by
  rw [commandWordWf, Bool.and_eq_true, reservedBitsZero_iff, opcodeAssigned_iff]

/-- The words that decode are those that pass the static check (R116). -/
theorem decode_isSome (w : Word) : (decode w).isSome = commandWordWf w := by
  rw [Bool.eq_iff_iff, commandWordWf_iff]
  rcases word_cases w with hrsv | ⟨i, rfl⟩ | ⟨hrsv, hop⟩
  · simp [decode_reserved hrsv, hrsv]
  · simp [opcode_toNat_lt]
  · have hnone : (decode w).isSome ≠ true := by simp [decode_reservedOpcode hrsv hop]
    exact iff_of_false hnone fun ⟨_, hlt⟩ => absurd hop (Nat.not_le.mpr hlt)

/-- Settles O1: a word is illegal by its reserved bits, a command's, or illegal by its opcode. -/
theorem decodeEncodeAgree : Obligations.DecodeEncodeAgree :=
  ⟨fun i _ => decode_encode i, fun _ _ => decode_eq_some_iff.mp,
    fun w => ⟨decodeWord_eq_reservedBits_iff w, decodeWord_eq_reservedOpcode_iff w, decode_isSome w⟩⟩

/-- Settles O2: the nine words are those of the commands, and all of them are below 9. -/
theorem opcodeMapWords : Obligations.OpcodeMapWords := by
  refine ⟨⟨decode_encode .nop, decode_encode .encode, decode_encode .tencode, decode_encode .hmac,
    decode_encode .trunc, decode_encode .format, decode_encode .hotp, decode_encode .totp,
    decode_encode .zeroize⟩, fun w hw => ?_⟩
  cases hd : decode w with
  | none => rfl
  | some i =>
    rw [← decode_eq_some_iff.mp hd] at hw
    exact absurd (encode_toNat_lt i) (Nat.not_lt.mpr hw)

namespace Machine

/-! ## The completion of an illegal word -/

/-- The bookkeeping of an error is all that `afterError` changes (60_exceptions.md R273). -/
theorem finish_eq_afterError {e : ErrorCode} (he : e ≠ .none) (s : State) : finish e s = afterError e s := by
  simp only [finish, recordCompletion, afterError, if_neg he]

/-- The sequencer's turn completes a command in progress (40_command_execution.md R141). -/
theorem step_core_of_busy {s : State} {rest : List Turn} (hturns : s.turns = .core :: rest) (hb : s.busy = true)
    (hr : s.rst = false) : step s = completion { s with turns := rest } := by
  simp [step_turn hturns, takeTurn, coreTurn, hb, hr]

theorem completion_of_illegal {s : State} (h : decode s.cmd = none) :
    completion s = .next (afterError .illegalCmd s) := by
  simp only [completion, h, illegalCommand, raiseError, finish_eq_afterError (e := .illegalCmd) (by decide)]

/-- Settles O3. -/
theorem illegalWordCompletesWithIllegalCmd : Obligations.IllegalWordCompletesWithIllegalCmd := by
  intro w s hw hb hr
  constructor
  · exact (busWrite_register hr .cmd w).trans (congrArg Except.ok (writeReg_cmd_of_idle hb))
  · intro rest hturns
    exact (step_core_of_busy (s := accept w s) hturns rfl hr).trans (completion_of_illegal (decode_illegal hw))

end Machine

end Sys2Proof

end

section

/-! PROOFS. The host's turn, statement by statement (R123), and the statements each pseudo-statement stands for
(R124). -/

namespace Sys2Proof.Machine

/-! ## The host's turn -/

/-- The host's turn of a step is its next statement, the turn used up. -/
theorem step_hostStatement {s : State} {rest : List Turn} {st : Stmt} (hturns : s.turns = .host :: rest)
    (hh : s.host.halted = false) (hp : s.host.prog[s.host.pc]? = some st) :
    step s = hostStatement st { s with turns := rest } :=
  (step_turn hturns).trans (hostTurn_running hh hp)

/-- A write the core admits touches nothing of the host. -/
theorem busWrite_keeps_host {off size : Nat} {v : Word} {s s' : State} (h : busWrite off size v s = .ok s') :
    s'.host = s.host := by
  rcases busWrite_cases off size v s with ⟨-, hb⟩ | ⟨-, -, hb⟩ | ⟨r, -, -, -, hb⟩ <;> cases hb.symm.trans h
  obtain ⟨-, hhost, -⟩ := writeReg_keeps r v s
  exact hhost

/-- No read rests on the schedule. -/
theorem busRead_withTurns (off size : Nat) (s : State) (rest : List Turn) :
    busRead off size { s with turns := rest } = busRead off size s := by
  have hread : ∀ r, readReg r { s with turns := rest } = readReg r s := by
    intro r
    cases r <;> rfl
  simp only [busRead, hread]

/-- An admitted write does what the write does, and the host goes on (R123). -/
theorem hostStatement_wr {off size : Nat} {v : Word} {s s' : State} (h : busWrite off size v s = .ok s') :
    hostStatement (.wr off size v) s = .next (hostAdvance s') := by
  simp only [hostStatement, h]

/-- An admitted read puts the value into its temporary, and the host goes on (R123). -/
theorem hostStatement_rd {off size : Nat} {v : Word} {s : State} (x : Nat) (h : busRead off size s = .ok v) :
    hostStatement (.rd off size x) s = .next (hostReceive x v s) := by
  simp only [hostStatement, h]

/-- `bnz` goes to its target exactly when a masked bit of its temporary is set (R123). -/
theorem hostStatement_bnz (x target : Nat) (mask : Word) (s : State) :
    hostStatement (.bnz x mask target) s =
      .next (hostGoto (if tempGet s.host.temps x &&& mask ≠ 0#32 then target else s.host.pc + 1) s) := by
  by_cases h : tempGet s.host.temps x &&& mask = 0#32 <;> simp [hostStatement, h, hostAdvance]

/-- Settles O31. -/
theorem hostTurnRunsTheNextStatement : Obligations.HostTurnRunsTheNextStatement := by
  refine ⟨?write, ?read, ?branch, ?halt, ?halted⟩
  case write =>
    intro s s' rest off size v hturns hh hp hw
    rw [step_hostStatement hturns hh hp, hostStatement_wr hw, ← busWrite_keeps_host hw]
    rfl
  case read =>
    intro s rest off size x v hturns hh hp hr
    rw [step_hostStatement hturns hh hp]
    exact hostStatement_rd x ((busRead_withTurns off size s rest).trans hr)
  case branch =>
    intro s rest x target mask hturns hh hp
    rw [step_hostStatement hturns hh hp]
    exact hostStatement_bnz x target mask { s with turns := rest }
  case halt =>
    intro s rest hturns hh hp
    exact step_hostStatement hturns hh hp
  case halted =>
    intro s rest hturns hh
    exact (step_turn hturns).trans (hostTurn_halted hh)

/-! ## The pseudo-statements -/

/-- Word k of a byte sequence, its first byte the highest, 0x00 past the end (R124). -/
def listWord (b : List Byte) (k : Nat) : Word :=
  be32 (b.getD (4 * k) 0#8) (b.getD (4 * k + 1) 0#8) (b.getD (4 * k + 2) 0#8) (b.getD (4 * k + 3) 0#8)

/-- Four bytes on, a word's index is one less. -/
theorem listWord_cons_succ (b0 b1 b2 b3 : Byte) (rest : List Byte) (k : Nat) :
    listWord (b0 :: b1 :: b2 :: b3 :: rest) (k + 1) = listWord rest k := rfl

/-- Each started word of a key is written once, to its own register (R124). -/
theorem keyWrites_getElem? (j : Nat) (b : List Byte) {k : Nat} (hk : k < (b.length + 3) / 4) :
    (keyWrites j b)[k]? = some (.wr (0x100 + 4 * (j + k)) 32 (listWord b k)) := by
  induction j, b using keyWrites.induct generalizing k with
  | case1 => simp at hk
  | case2 | case3 | case4 =>
    obtain rfl : k = 0 := by simp at hk; omega
    rfl
  | case5 j b0 b1 b2 b3 rest ih =>
    cases k with
    | zero => rfl
    | succ k =>
      have hrest : k < (rest.length + 3) / 4 := by simp at hk; omega
      rw [keyWrites, List.getElem?_cons_succ, ih hrest, listWord_cons_succ, Nat.add_right_comm, Nat.add_assoc]

/-- Settles O32. -/
theorem pseudoStatementsExpand : Obligations.PseudoStatementsExpand := by
  intro labels pos
  refine ⟨fun _ => rfl, rfl, rfl, fun _ => rfl, fun _ => rfl, fun _ _ => rfl,
    fun b _ => ⟨keyWrites 0 b, rfl, keyWrites_length 0 b, fun k hk => ?_⟩⟩
  rw [keyWrites_getElem? 0 b (keyWrites_length 0 b ▸ hk), Nat.zero_add, listWord]

end Sys2Proof.Machine

end

section

/-! PROOFS. Commands and their completion (40_command_execution.md R140-R151): which command a completion step runs,
the bookkeeping it ends with, and that every accepted command completes. -/

namespace Sys2Proof.Machine

/-! ## What the sequencer's turn runs -/

/-- A busy core completes at the schedule's end (R141; the default turn of notes/assumptions/2.md). -/
theorem step_of_busy_at_end {s : State} (hturns : s.turns = []) (hb : s.busy = true) (hr : s.rst = false) :
    step s = completion s := by
  simp [step, hturns, defaultTurn, takeTurn, coreTurn, hb, hr]

/-- A completion runs the command its word decodes to (R144). -/
theorem completion_of_decode {s : State} {i : Instr} (h : decode s.cmd = some i) : completion s = exec i s := by
  simp only [completion, h]

/-- The placed word is read as the opcode table reads it (notes/assumptions/3.md). -/
theorem decode_withFetchWord_cmd {n w : Nat} {i : Instr} (s : State) (h : decodeTableWord n w = some i) :
    decode (s.withFetchWord n w).cmd = some i := by
  simp only [decodeTableWord] at h
  split at h
  · exact h
  · cases h

/-- Settles O4. -/
theorem stepRunsTheDecodedCommand : Obligations.StepRunsTheDecodedCommand := by
  refine ⟨fun s i hi hb hr => ⟨fun hend => ?_, fun rest hturns => ?_⟩, fun s w i hw => ?_⟩
  · exact (step_of_busy_at_end hend hb hr).trans (completion_of_decode hi)
  · exact (step_core_of_busy hturns hb hr).trans (completion_of_decode hi)
  · exact (step_of_busy_at_end rfl rfl rfl).trans (completion_of_decode (decode_withFetchWord_cmd s hw))

/-- Settles O41. -/
theorem acceptStartsACommand : Obligations.AcceptStartsACommand := by
  intro s v hr
  have hwrite : busWrite 0x00C 32 v s = .ok (writeReg .cmd v s) := busWrite_register hr .cmd v
  refine ⟨fun hidle => ?_, fun hb => ⟨_, hwrite, ?_⟩⟩
  · rw [hwrite, writeReg_cmd_of_idle hidle]
    rfl
  · rw [writeReg_of_busy rfl hb, ignoreWrite_cmd]

/-! ## NOP and ZEROIZE -/

/-- A success changes what its command wrote, and the bookkeeping of code 0 (R143). -/
theorem complete_eq_afterSuccess (s : State) : complete s = .next (afterSuccess s.status s.res s) := rfl

/-- Settles O5. -/
theorem nopOnlyCompletes : Obligations.NopOnlyCompletes :=
  ⟨rfl, fun s => ⟨complete_eq_afterSuccess s, Bool.and_true s.irqEn⟩⟩

/-- Settles O6. -/
theorem zeroizeClearsSecretAndResults : Obligations.ZeroizeClearsSecretAndResults :=
  ⟨rfl, fun s => complete_eq_afterSuccess (zeroizeData s)⟩

/-! ## The code a command reports -/

/-- The outcome is a next state whose code is the first of the checks whose cause stands when command i completes in
s, NONE if none does (60_exceptions.md R276). -/
def Reports (i : Instr) (s : State) (checks : List ErrorCode) (o : Outcome) : Prop :=
  ∃ t, o = .next t ∧ t.status.errCode = (checks.find? (errorApplies i s)).getD .none

section

variable {i : Instr} {s : State} {e : ErrorCode} {checks : List ErrorCode} {o : Outcome}

theorem reports_complete (s' : State) : Reports i s [] (complete s') := ⟨_, rfl, rfl⟩

theorem reports_raiseError (he : errorApplies i s e = true) (s' : State) :
    Reports i s (e :: checks) (raiseError e s') :=
  ⟨_, rfl, by simp [he]⟩

theorem reports_cons_of_not_applies (he : errorApplies i s e = false) (h : Reports i s checks o) :
    Reports i s (e :: checks) o := by
  simpa [Reports, he] using h

/-- A check that raises its error exactly when the cause stands, before the checks of the rest. -/
theorem reports_check {c : Bool} (hc : errorApplies i s e = c) (h : Reports i s checks o) :
    Reports i s (e :: checks) (if c then raiseError e s else o) := by
  cases c with
  | true => exact reports_raiseError hc s
  | false => exact reports_cons_of_not_applies hc h

/-- The check of the algorithm selector (30_encoding.md R120). -/
theorem reports_selectAlg {run : Alg → Outcome} (h : ∀ a, Reports i s checks (run a)) :
    Reports i s (.unsupportedAlgorithm :: checks)
      (match selectAlg s.ops.alg with
        | none => raiseError .unsupportedAlgorithm s
        | some a => run a) := by
  have hc := errorApplies_unsupportedAlgorithm i s
  cases ha : selectAlg s.ops.alg with
  | none => exact reports_raiseError (by rw [hc, ha]; rfl) s
  | some a => exact reports_cons_of_not_applies (by rw [hc, ha]; rfl) (h a)

/-- The checks of the time-to-counter derivation (46_totp.md R250). -/
theorem reports_timeCounter {run : DWord → Outcome} (h : ∀ c, Reports i s checks (run c)) :
    Reports i s (.negTimestamp :: .badStep :: checks)
      (match timeCounter (timestampOf s) s.ops.timeStep with
        | .error e => raiseError e s
        | .ok c => run c) := by
  rcases timeCounter_causes i s with ⟨hneg, ht⟩ | ⟨hneg, hstep, ht⟩ | ⟨hneg, hstep, ht⟩ <;> rw [ht]
  · exact reports_raiseError hneg s
  · exact reports_cons_of_not_applies hneg (reports_raiseError hstep s)
  · exact reports_cons_of_not_applies hneg (reports_cons_of_not_applies hstep (h _))

end

/-- Every command makes its checks in the order of R277 and reports the first whose cause stands. -/
theorem exec_reports (i : Instr) (s : State) : Reports i s (checksOf i) (exec i s) := by
  have hdigits := errorApplies_outOfBounds i s
  have hkey := errorApplies_badKeyLen i s
  cases i with
  | nop | encode | zeroize => exact reports_complete _
  | tencode => exact reports_timeCounter fun _ => reports_complete _
  | hmac => exact reports_selectAlg fun _ => reports_check hkey (reports_check rfl (reports_complete _))
  | trunc => exact reports_check rfl (reports_complete _)
  | format => exact reports_check hdigits (reports_check rfl (reports_complete _))
  | hotp => exact reports_check hdigits (reports_check hkey (reports_complete _))
  | totp =>
    exact reports_check hdigits (reports_timeCounter fun _ => reports_selectAlg fun _ =>
      reports_check hkey (reports_complete _))

/-! ## The bookkeeping of a completion -/

/-- No effect touches the events of STATUS, which the bookkeeping and the host write (10_state.md R36). -/
theorem Effect.keeps_events {s s' : State} {i : Instr} (h : Effect s i s') :
    s'.status.err = s.status.err ∧ s'.status.wign = s.status.wign := by
  cases h <;> exact ⟨rfl, rfl⟩

/-- A command ends with the bookkeeping of the code it reports, on the state as it was or as its effect left it. -/
theorem exec_eq_finish (i : Instr) (s : State) :
    ∃ s', (s' = s ∨ Effect s i s') ∧ exec i s = .next (finish (reportedError i s) s') := by
  obtain ⟨t, ht, hcode⟩ : ∃ t, exec i s = .next t ∧ t.status.errCode = reportedError i s := exec_reports i s
  rcases exec_cases i s with ⟨e, -, h⟩ | ⟨s', heff, h⟩
  · obtain rfl : finish e s = t := Host.Outcome.next.inj (h.symm.trans ht)
    exact ⟨s, .inl rfl, hcode ▸ h⟩
  · obtain rfl : finish .none s' = t := Host.Outcome.next.inj (h.symm.trans ht)
    exact ⟨s', .inr heff, hcode ▸ h⟩

/-- Settles O24. -/
theorem completionBookkeeping : Obligations.CompletionBookkeeping := by
  rintro s o e (⟨i, rfl, rfl⟩ | ⟨rfl, hillegal, rfl⟩)
  · obtain ⟨s', rfl | heff, h⟩ := exec_eq_finish i s
    · exact ⟨_, h, rfl, rfl, rfl, rfl, rfl, rfl, rfl, rfl, rfl, rfl, rfl⟩
    · obtain ⟨hirq, -, hcmd, hrst, hhost, hturns⟩ := heff.keeps
      obtain ⟨herr, hwign⟩ := heff.keeps_events
      exact ⟨_, h, by simp [hcmd], rfl, by simp [herr], rfl, rfl, hwign, hirq, hcmd, hrst, hhost, hturns⟩
  · exact ⟨_, completion_of_illegal hillegal, rfl, rfl, rfl, rfl, rfl, rfl, rfl, rfl, rfl, rfl, rfl⟩

/-! ## Progress -/

/-- A completion leaves the core idle, with DONE set and LASTOP the bits [3:0] of its word, legal or not (R143). -/
theorem completion_ends (s : State) :
    ∃ t, completion s = .next t ∧ t.busy = false ∧ t.status.done = true ∧
      t.status.lastOp = s.cmd.extractLsb' 0 4 := by
  rcases completion_cases s with ⟨e, -, h⟩ | ⟨i, s', -, heff, h⟩
  · exact ⟨_, h, rfl, rfl, rfl⟩
  · obtain ⟨-, -, hcmd, -⟩ := heff.keeps
    exact ⟨_, h, rfl, rfl, by simp [hcmd]⟩

/-- A first step that goes on is followed by the run from where it leads. -/
theorem run_succ_of_step {n : Nat} {s u : State} (h : step s = .next u) :
    Sys2Proof.core.run (n + 1) s = Sys2Proof.core.run n u := by
  simp only [Host.Core.run, Sys2Proof.core, h]

/-- Settles O55, by induction on the schedule: a turn of the host keeps the command in progress, the sequencer's
first turn completes it. -/
theorem acceptedCommandCompletes : Obligations.AcceptedCommandCompletes := by
  intro s hb hr hturns hprog
  generalize hsched : s.turns = sched at hturns ⊢
  induction sched generalizing s with
  | nil =>
    obtain ⟨t, ht, hend⟩ := completion_ends s
    have hstep : step s = .next t := (step_of_busy_at_end hsched hb hr).trans ht
    exact ⟨1, t, Nat.le_refl 1, run_succ_of_step hstep, hend⟩
  | cons turn rest ih =>
    obtain ⟨hturn, hrest⟩ := List.forall_mem_cons.mp hturns
    rcases hturn with rfl | rfl
    · obtain ⟨u, hu, huprog⟩ := admittedAccessesNeverFault s hr hprog
      obtain ⟨hheld, husched⟩ := step_host_keeps_heldPart hb hsched hu
      have hubusy : u.busy = s.busy := (congrArg State.busy hheld :)
      have hurst : u.rst = s.rst := (congrArg State.rst hheld :)
      have hucmd : u.cmd = s.cmd := (congrArg State.cmd hheld :)
      obtain ⟨n, t, hn, hrun, hend⟩ :=
        ih u (hubusy.trans hb) (hurst.trans hr) (huprog ▸ hprog) husched hrest
      exact ⟨n + 1, t, Nat.succ_le_succ hn, (run_succ_of_step hu).trans hrun, hucmd ▸ hend⟩
    · obtain ⟨t, ht, hend⟩ := completion_ends { s with turns := rest }
      have hstep : step s = .next t := (step_core_of_busy hsched hb hr).trans ht
      exact ⟨1, t, Nat.le_add_left 1 _, run_succ_of_step hstep, hend⟩

end Sys2Proof.Machine

end

section

/-! PROOFS. The counter codec (41_counter_codec.md R160-R162): the bytes of be64, what ENCODE writes, and that the
encoded counter reads back. -/

namespace Sys2Proof.Machine

/-! ## The bytes of be64 -/

/-- Byte i of be64(c) is the eight bits of c that start 8i bits below its top (R160). -/
theorem be64_getElem? (c : DWord) {i : Nat} (hi : i < 8) :
    (be64 c)[i]? = some (c.extractLsb' (56 - 8 * i) 8) := by
  interval_cases i <;> rfl

/-- Settles O7. -/
theorem counterBytesAreBigEndian : Obligations.CounterBytesAreBigEndian :=
  fun c => ⟨be64_length c, fun _ hi => be64_getElem? c hi⟩

/-- A sum over the bytes of be64(c), whatever their weights, written out from the first byte to the last. -/
theorem be64_weightedSum (c : DWord) (weight : Nat → Nat) :
    ((List.range 8).map fun i => ((be64 c).getD i 0#8).toNat * weight i).sum =
      (c.extractLsb' 56 8).toNat * weight 0 + ((c.extractLsb' 48 8).toNat * weight 1
        + ((c.extractLsb' 40 8).toNat * weight 2 + ((c.extractLsb' 32 8).toNat * weight 3
        + ((c.extractLsb' 24 8).toNat * weight 4 + ((c.extractLsb' 16 8).toNat * weight 5
        + ((c.extractLsb' 8 8).toNat * weight 6 + (c.extractLsb' 0 8).toNat * weight 7)))))) := rfl

/-- The bytes of be64(c) are the base-256 digits of c, the most significant first (R162). -/
theorem be64_digitSum (c : DWord) :
    ((List.range 8).map fun i => ((be64 c).getD i 0#8).toNat * 2 ^ (8 * (7 - i))).sum = c.toNat := by
  refine (be64_weightedSum c fun i => 2 ^ (8 * (7 - i))).trans ?_
  rw [← bytes_toNat c]
  ring

/-! ## ENCODE -/

/-- Settles O8. -/
theorem encodeWritesMessage : Obligations.EncodeWritesMessage :=
  ⟨rfl, fun s => complete_eq_afterSuccess (writeMessage (counterOf s) s)⟩

/-- The counter a command encodes, as a number (20_memory.md R88). -/
theorem counterOf_toNat (s : State) :
    (counterOf s).toNat = s.ops.counterHi.toNat * 2 ^ 32 + s.ops.counterLo.toNat :=
  append_words_toNat _ _

/-- The two words of a message buffer that holds be64(c) are the halves of c (10_state.md R43). -/
theorem messageWords_toNat (c : DWord) :
    (wordAt (fillBuffer 8 (be64 c)) 0).toNat * 2 ^ 32 + (wordAt (fillBuffer 8 (be64 c)) 1).toNat = c.toNat := by
  rw [← bytes_toNat c, ← be32_toNat, ← be32_toNat]
  rfl

/-- Settles O9: after ENCODE the two registers read the words of be64(counter). -/
theorem encodedCounterReadsBack : Obligations.EncodedCounterReadsBack := by
  refine ⟨be64_digitSum, fun s => ⟨_, encodeWritesMessage.2 s, ?_⟩⟩
  calc (wordAt (fillBuffer 8 (be64 (counterOf s))) 0).toNat * 2 ^ 32
        + (wordAt (fillBuffer 8 (be64 (counterOf s))) 1).toNat
      = (counterOf s).toNat := messageWords_toNat (counterOf s)
    _ = s.ops.counterHi.toNat * 2 ^ 32 + s.ops.counterLo.toNat := counterOf_toNat s

end Sys2Proof.Machine

end

section

/-! PROOFS. The keyed-hash unit (42_hmac_engine.md): padding and blocks, the message schedules, the two digests of
"abc", the HMAC construction and its key block, and the HMAC command. -/

namespace Sys2Proof.Machine

/-! ## Padding and blocks -/

/-- The zero bytes of R171 fill the last block. -/
theorem padZeros_fills (len : Nat) : (len + 1 + padZeros len + 8) % 64 = 0 := by
  simp only [padZeros, Config.blockBytes]
  omega

/-- No smaller number of zero bytes than that of R171 does. -/
theorem padZeros_least {len j : Nat} (hj : j < padZeros len) : (len + 1 + j + 8) % 64 ≠ 0 := by
  simp only [padZeros, Config.blockBytes] at hj
  omega

theorem pad_length (m : List Byte) : (pad m).length = m.length + 1 + padZeros m.length + 8 := by
  simp only [pad, List.length_append, List.length_singleton, List.length_replicate, be64_length]

/-- The first n blocks of a sequence are its first n * 64 bytes, in order. -/
theorem blocks_flatten (n : Nat) (bs : List Byte) : (blocks n bs).flatten = bs.take (n * Config.blockBytes) := by
  induction n generalizing bs with
  | zero => simp [blocks]
  | succ n ih => rw [blocks, List.flatten_cons, ih, ← List.take_add, Nat.succ_mul, Nat.add_comm]

/-- Blocks cut from a sequence that is long enough are whole. -/
theorem length_of_mem_blocks {n : Nat} {bs b : List Byte} (hlen : n * Config.blockBytes ≤ bs.length)
    (hb : b ∈ blocks n bs) : b.length = Config.blockBytes := by
  induction n generalizing bs with
  | zero => cases hb
  | succ n ih =>
    rw [Nat.succ_mul] at hlen
    rcases List.mem_cons.mp hb with rfl | hrest
    · exact List.length_take_of_le (by omega)
    · exact ih (by rw [List.length_drop]; omega) hrest

/-- Settles O56: the padded length is a multiple of 64, so cutting it into blocks loses nothing. -/
theorem paddingFillsWholeBlocks : Obligations.PaddingFillsWholeBlocks := by
  intro m
  have hfills : (m.length + 1 + padZeros m.length + 8) % 64 = 0 := padZeros_fills m.length
  have hwhole : (pad m).length / Config.blockBytes * Config.blockBytes = (pad m).length :=
    Nat.div_mul_cancel (Nat.dvd_of_mod_eq_zero (pad_length m ▸ hfills))
  refine ⟨⟨padZeros m.length, rfl, hfills, fun _ => padZeros_least⟩, ?_, fun b hb => ?_⟩
  · rw [paddedBlocks, blocks_flatten, hwhole, List.take_length]
  · exact length_of_mem_blocks hwhole.le hb

/-! ## Message schedules -/

/-- Word t of a block is the big-endian word of its bytes 4t to 4t+3 (R172). -/
theorem schedWord_blockWords {block : List Byte} {t : Nat} (h : 4 * t + 3 < block.length) :
    schedWord (blockWords block) t = be32 (block.getD (4 * t) 0#8) (block.getD (4 * t + 1) 0#8)
      (block.getD (4 * t + 2) 0#8) (block.getD (4 * t + 3) 0#8) := by
  induction t generalizing block with
  | zero =>
    match block, h with
    | _ :: _ :: _ :: _ :: _, _ => rfl
  | succ t ih =>
    match block, h with
    | _ :: _ :: _ :: _ :: rest, h => exact ih (block := rest) (by simp only [List.length_cons] at h; omega)

theorem schedWord_append_of_lt {w more : List Word} {t : Nat} (h : t < w.length) :
    schedWord (w ++ more) t = schedWord w t :=
  List.getD_append w more 0#32 t h

/-- A schedule shortened to its first n words reads the same there. -/
theorem schedWord_take_of_lt {w : List Word} {n t : Nat} (h : t < n) : schedWord (w.take n) t = schedWord w t := by
  simp only [schedWord, List.getD_eq_getElem?_getD, List.getElem?_take_of_lt h]

/-- An extended schedule begins with the words it had. -/
theorem schedWord_extendSchedule_of_lt (next : List Word → Word) (n : Nat) {w : List Word} {t : Nat}
    (h : t < w.length) : schedWord (extendSchedule next n w) t = schedWord w t := by
  obtain ⟨more, hmore⟩ := extendSchedule_keeps next n w
  rw [hmore, schedWord_append_of_lt h]

/-- Each word an extension adds is computed from the words before it. -/
theorem schedWord_extendSchedule (next : List Word → Word) {n : Nat} {w : List Word} {t : Nat}
    (hw : w.length ≤ t) (ht : t < w.length + n) :
    schedWord (extendSchedule next n w) t = next ((extendSchedule next n w).take t) := by
  induction n generalizing w with
  | zero => omega
  | succ n ih =>
    rw [extendSchedule]
    rcases hw.eq_or_lt with rfl | hlt
    · obtain ⟨more, hmore⟩ := extendSchedule_keeps next n (w ++ [next w])
      simp [hmore, schedWord]
    · exact ih (by simpa using hlt) (by simp; omega)

/-- The recurrence of R175, on any schedule that has the word t. -/
theorem sha1NextWord_take {w : List Word} {t : Nat} (h16 : 16 ≤ t) (ht : t ≤ w.length) :
    sha1NextWord (w.take t) = (schedWord w (t - 3) ^^^ schedWord w (t - 8) ^^^ schedWord w (t - 14) ^^^
      schedWord w (t - 16)).rotateLeft 1 := by
  have hback (k : Nat) (hk : 0 < k) : schedWord (w.take t) (t - k) = schedWord w (t - k) :=
    schedWord_take_of_lt (by omega)
  simp only [sha1NextWord, List.length_take_of_le ht, hback, Nat.reduceLT]

/-- The recurrence of R183, on any schedule that has the word t. -/
theorem sha256NextWord_take {w : List Word} {t : Nat} (h16 : 16 ≤ t) (ht : t ≤ w.length) :
    sha256NextWord (w.take t) = smallSigma1 (schedWord w (t - 2)) + schedWord w (t - 7) +
      smallSigma0 (schedWord w (t - 15)) + schedWord w (t - 16) := by
  have hback (k : Nat) (hk : 0 < k) : schedWord (w.take t) (t - k) = schedWord w (t - k) :=
    schedWord_take_of_lt (by omega)
  simp only [sha256NextWord, List.length_take_of_le ht, hback, Nat.reduceLT]

/-- Settles O57: both schedules extend the block's sixteen words, each by its own recurrence. -/
theorem messageSchedules : Obligations.MessageSchedules := by
  intro block hblock
  have hwords : (blockWords block).length = 16 := blockWords_length 16 block hblock
  have hsha1 : (sha1Schedule block).length = 80 := by simp [sha1Schedule, hwords]
  have hsha256 : (sha256Schedule block).length = 64 := by simp [sha256Schedule, hwords]
  refine ⟨hsha1, hsha256, fun t ht => ?_, fun t h16 ht => ?_, fun t h16 ht => ?_⟩
  · have hfirst (next : List Word → Word) (n : Nat) :
        schedWord (extendSchedule next n (blockWords block)) t = schedWord (blockWords block) t :=
      schedWord_extendSchedule_of_lt next n (by omega)
    exact ⟨(hfirst _ _).trans (schedWord_blockWords (by omega)), (hfirst _ _).trans (hfirst _ _).symm⟩
  · rw [← sha1NextWord_take h16 (by omega)]
    exact schedWord_extendSchedule sha1NextWord (by omega) (by omega)
  · rw [← sha256NextWord_take h16 (by omega)]
    exact schedWord_extendSchedule sha256NextWord (by omega) (by omega)

/-! ## The digests of "abc" -/

/-- Settles O58, by the kernel's evaluation of the one padded block under each hash. -/
theorem digestsOfAbc : Obligations.DigestsOfAbc := by
  unfold Obligations.DigestsOfAbc
  exact ⟨by decide +kernel, by decide +kernel⟩

/-! ## HMAC and its key block -/

/-- The exclusive or with one byte is the one with a sequence of that byte (R190: ipad and opad). -/
theorem zipWith_replicate_eq_xorBytes (p : Byte) (bs : List Byte) :
    List.zipWith (· ^^^ ·) bs (List.replicate bs.length p) = xorBytes p bs := by
  induction bs with
  | nil => rfl
  | cons b bs ih => simpa [xorBytes, List.replicate_succ] using ih

/-- Settles O59, with the model's key block. -/
theorem hmacConstruction : Obligations.HmacConstruction := by
  intro a key m
  have hlen : (hmacKeyBlock a key).length = 64 := hmacKeyBlock_length a key
  refine ⟨hmacKeyBlock a key, rfl, hlen, ?_, ?_⟩
  · rw [← hlen, zipWith_replicate_eq_xorBytes, zipWith_replicate_eq_xorBytes]
    rfl
  · rw [hmac_length]
    rfl

/-- A key that fits a block is filled with zero bytes. -/
theorem hmacKeyBlock_of_le (a : Alg) {key : List Byte} (h : key.length ≤ 64) :
    hmacKeyBlock a key = key ++ List.replicate (64 - key.length) 0x00#8 := by
  simp [hmacKeyBlock, Config.blockBytes, Nat.not_lt.mpr h]

/-- A key longer than a block has the key block of its hash (R192). -/
theorem hmacKeyBlock_hashOf (a : Alg) {key : List Byte} (h : 64 < key.length) :
    hmacKeyBlock a key = hmacKeyBlock a (hashOf a key) := by
  have hfits : (hashOf a key).length ≤ 64 := by have := digestBytes_le a; simp; omega
  rw [hmacKeyBlock_of_le a hfits]
  simp [hmacKeyBlock, Config.blockBytes, h]

/-- Zero bytes after a key that still fit a block leave its key block as it is (R193). -/
theorem hmacKeyBlock_append_zeros (a : Alg) {key : List Byte} {n : Nat} (h : key.length + n ≤ 64) :
    hmacKeyBlock a (key ++ List.replicate n 0x00#8) = hmacKeyBlock a key := by
  rw [hmacKeyBlock_of_le a (by simpa using h), hmacKeyBlock_of_le a (by omega), List.append_assoc,
    List.replicate_append_replicate, List.length_append, List.length_replicate]
  congr 2
  omega

/-- HMAC reads no more of its key than the key block (R190). -/
theorem hmac_congr_keyBlock {a : Alg} {key key' : List Byte} (h : hmacKeyBlock a key = hmacKeyBlock a key')
    (m : List Byte) : hmac a key m = hmac a key' m := by
  simp only [hmac, h]

/-- Settles O60: in each case the two keys have one key block. -/
theorem keyLengthCases : Obligations.KeyLengthCases :=
  ⟨fun a _ m h => hmac_congr_keyBlock (hmacKeyBlock_hashOf a h) m,
    fun a _ m _ h => hmac_congr_keyBlock (hmacKeyBlock_append_zeros a h) m⟩

/-! ## The HMAC command -/

section

variable {s : State} {a : Alg}

/-- HMAC with every check passed writes the digest of the selected algorithm (R200). -/
theorem exec_hmac_of_checks (ha : selectAlg s.ops.alg = some a) (hk : keyLenBad s = false)
    (hv : s.status.msgValid = true) :
    exec .hmac s = complete (writeDigest a (hmac a (secretOf s) (messageOf s)) s) := by
  simp [exec, execHmac, ha, hk, hv]

theorem exec_hmac_of_unknownAlg (ha : selectAlg s.ops.alg = none) :
    exec .hmac s = .next (afterError .unsupportedAlgorithm s) := by
  simp [exec, execHmac, ha, raiseError, finish_eq_afterError]

theorem exec_hmac_of_badKeyLen (ha : selectAlg s.ops.alg = some a) (hk : keyLenBad s = true) :
    exec .hmac s = .next (afterError .badKeyLen s) := by
  simp [exec, execHmac, ha, hk, raiseError, finish_eq_afterError]

theorem exec_hmac_of_noMessage (ha : selectAlg s.ops.alg = some a) (hk : keyLenBad s = false)
    (hv : s.status.msgValid = false) : exec .hmac s = .next (afterError .sequence s) := by
  simp [exec, execHmac, ha, hk, hv, raiseError, finish_eq_afterError]

end

/-- The two selector values that name an algorithm (30_encoding.md R120). -/
theorem selectAlg_of_supported {x : BitVec 2} (h : x = 0#2 ∨ x = 1#2) : ∃ a, selectAlg x = some a := by
  rcases h with rfl | rfl
  · exact ⟨.sha1, rfl⟩
  · exact ⟨.sha256, rfl⟩

/-- The two selector values that name none (30_encoding.md R120). -/
theorem selectAlg_of_unsupported {x : BitVec 2} (h : x = 2#2 ∨ x = 3#2) : selectAlg x = none := by
  rcases h with rfl | rfl <;> rfl

/-- Settles O12: each clause is one outcome of the checks, in their order. -/
theorem hmacWritesDigest : Obligations.HmacWritesDigest := by
  refine ⟨rfl, fun s halg hk hv => ?_, fun s halg hk hv => ?_, fun s halg => ?_, fun s halg hk => ?_,
    fun s halg hk hv => ?_⟩
  · exact (exec_hmac_of_checks (a := .sha1) (halg ▸ rfl) ((keyLenBad_eq_false_iff s).mpr hk) hv).trans
      (complete_eq_afterSuccess _)
  · exact (exec_hmac_of_checks (a := .sha256) (halg ▸ rfl) ((keyLenBad_eq_false_iff s).mpr hk) hv).trans
      (complete_eq_afterSuccess _)
  · exact exec_hmac_of_unknownAlg (selectAlg_of_unsupported halg)
  · obtain ⟨_, ha⟩ := selectAlg_of_supported halg
    exact exec_hmac_of_badKeyLen ha ((keyLenBad_iff s).mpr hk)
  · obtain ⟨_, ha⟩ := selectAlg_of_supported halg
    exact exec_hmac_of_noMessage ha ((keyLenBad_eq_false_iff s).mpr hk) hv

end Sys2Proof.Machine

end

section

/-! PROOFS. The truncator (43_truncator.md R220-R222): the window of dynamic truncation lies inside the digest, its
value, and the TRUNC command. -/

namespace Sys2Proof.Machine

/-! ## Dynamic truncation -/

/-- The offset is a low nibble, so the window ends at byte 18 at the latest (R222). -/
theorem truncOffset_le (d : List Byte) : truncOffset d ≤ 15 := by
  rw [truncOffset, BitVec.toNat_and]
  exact Nat.and_le_right

/-- The mask of R220 keeps the low seven bits of a byte. -/
theorem and_0x7F_toNat (b : Byte) : (b &&& 0x7F#8).toNat = b.toNat % 2 ^ 7 := by
  rw [BitVec.toNat_and]
  exact Nat.and_two_pow_sub_one_eq_mod b.toNat 7

/-- Dropping the top bit of a big-endian word is masking the top bit of its first byte. -/
theorem be32_low31_toNat (b0 b1 b2 b3 : Byte) :
    ((be32 b0 b1 b2 b3).extractLsb' 0 31).toNat =
      (b0 &&& 0x7F#8).toNat * 2 ^ 24 + b1.toNat * 2 ^ 16 + b2.toNat * 2 ^ 8 + b3.toNat := by
  rw [BitVec.extractLsb'_toNat, Nat.shiftRight_zero, be32_toNat, and_0x7F_toNat]
  have h1 := b1.isLt
  have h2 := b2.isLt
  have h3 := b3.isLt
  omega

/-- A list reads the byte `getD` gives wherever it has one. -/
theorem getElem?_eq_some_getD {d : List Byte} {i : Nat} (h : i < d.length) : d[i]? = some (d.getD i 0#8) := by
  rw [List.getD_eq_getElem _ _ h, List.getElem?_eq_getElem h]

/-- Settles O14: the offset is at most 15, and the digest has at least 20 bytes. -/
theorem dynamicTruncationWindow : Obligations.DynamicTruncationWindow := by
  intro d hd
  have ho : truncOffset d ≤ 15 := truncOffset_le d
  have hlen : 20 ≤ d.length := by omega
  exact ⟨truncOffset d, _, _, _, _, _, getElem?_eq_some_getD (by omega), rfl, getElem?_eq_some_getD (by omega),
    getElem?_eq_some_getD (by omega), getElem?_eq_some_getD (by omega), getElem?_eq_some_getD (by omega),
    be32_low31_toNat _ _ _ _⟩

/-! ## The TRUNC command -/

/-- TRUNC with a digest in place truncates it (R221). -/
theorem exec_trunc_of_digest {s : State} (hv : s.status.digestValid = true) :
    exec .trunc s = complete (writeTrunc (dynamicTruncate (digestOf s)) s) := by
  simp [exec, execTrunc, hv]

theorem exec_trunc_of_noDigest {s : State} (hv : s.status.digestValid = false) :
    exec .trunc s = .next (afterError .sequence s) := by
  simp [exec, execTrunc, hv, raiseError, finish_eq_afterError]

/-- Settles O13: the two outcomes of the one check. -/
theorem truncSelectsWindow : Obligations.TruncSelectsWindow :=
  ⟨rfl, fun _ hv => (exec_trunc_of_digest hv).trans (complete_eq_afterSuccess _), fun _ => exec_trunc_of_noDigest⟩

end Sys2Proof.Machine

end

section

/-! PROOFS. The code formatter (44_code_formatter.md R230-R232): the digits and the fill of the code string, the
FORMAT command, and that a code string spells CODE after each command that writes one. -/

namespace Sys2Proof.Machine

/-! ## The code string -/

/-- Byte i of the buffer that holds a code string: the character at i, and 0x00 after the last one (R230). -/
theorem byteAt_codeString (c : Nat) {d : Nat} (hd : d ≤ 8) (i : Nat) :
    byteAt (fillBuffer 8 (codeString c d)) i = if i < d then codeChar c d i else 0x00#8 := by
  rw [byteAt_fillBuffer]
  split_ifs with hi8 hi hi
  · exact codeString_getD c d i hi
  · exact List.getD_eq_default _ _ (by simpa using hi)
  · omega
  · rfl

/-- Settles O15: a code string of at most eight digits fits its buffer. -/
theorem formatDigitsAndFill : Obligations.FormatDigitsAndFill := by
  intro v d hd
  have hfits : d ≤ 8 := by omega
  refine ⟨rfl, fun i hi => ?_, fun i hi _ => ?_⟩
  · rw [byteAt_codeString _ hfits, if_pos hi]
    exact codeChar_toNat _ d i
  · rw [byteAt_codeString _ hfits, if_neg (Nat.not_lt.mpr hi)]

/-! ## The FORMAT command -/

/-- The three legal values of DIGITS pass its check (60_exceptions.md R270). -/
theorem digitsOutOfBounds_of_legal {s : State}
    (h : s.ops.digits = 6#4 ∨ s.ops.digits = 7#4 ∨ s.ops.digits = 8#4) : digitsOutOfBounds s = false := by
  refine (digitsOutOfBounds_eq_false_iff s).mpr ?_
  rcases h with h | h | h <;> simp [h]

section

variable {s : State}

/-- FORMAT with both checks passed writes the code of the truncated value (R231). -/
theorem exec_format_of_checks (hd : digitsOutOfBounds s = false) (hv : s.status.truncValid = true) :
    exec .format s = complete (writeCode s.res.trunc s.ops.digits s) := by
  simp [exec, execFormat, hd, hv]

theorem exec_format_of_badDigits (hd : digitsOutOfBounds s = true) :
    exec .format s = .next (afterError .outOfBounds s) := by
  simp [exec, execFormat, hd, raiseError, finish_eq_afterError]

theorem exec_format_of_noTrunc (hd : digitsOutOfBounds s = false) (hv : s.status.truncValid = false) :
    exec .format s = .next (afterError .sequence s) := by
  simp [exec, execFormat, hd, hv, raiseError, finish_eq_afterError]

end

/-- Settles O16: each clause is one outcome of the two checks, in their order. -/
theorem formatWritesCode : Obligations.FormatWritesCode := by
  refine ⟨rfl, fun s hd hv => ?_, fun s hd => ?_, fun s hd hv => ?_⟩
  · exact (exec_format_of_checks (digitsOutOfBounds_of_legal hd) hv).trans (complete_eq_afterSuccess _)
  · exact exec_format_of_badDigits ((digitsOutOfBounds_iff s).mpr hd)
  · exact exec_format_of_noTrunc (digitsOutOfBounds_of_legal hd) hv

/-! ## The code after a success -/

/-- A command that ends without an error has made its writes and the bookkeeping of code 0 (R143). -/
theorem effect_of_exec_success {i : Instr} {s t : State} (hexec : exec i s = .next t)
    (hcode : t.status.errCode = .none) : ∃ s', Effect s i s' ∧ t = finish .none s' := by
  rcases exec_cases i s with ⟨e, he, h⟩ | ⟨s', heff, h⟩
  · obtain rfl : finish e s = t := Host.Outcome.next.inj (h.symm.trans hexec)
    exact absurd hcode he
  · exact ⟨s', heff, Host.Outcome.next.inj (hexec.symm.trans h)⟩

/-- The last write of FORMAT, HOTP and TOTP is that of a code with the DIGITS in CFG, which passed their check. -/
theorem Effect.writes_code {i : Instr} {s s' : State} (h : Effect s i s')
    (hi : i = .format ∨ i = .hotp ∨ i = .totp) :
    digitsOutOfBounds s = false ∧ ∃ v u, s' = writeCode v s.ops.digits u := by
  rcases hi with rfl | rfl | rfl
  · cases h with
    | format hd _ => exact ⟨hd, _, _, rfl⟩
  · cases h with
    | hotp hd _ => exact ⟨hd, _, _, rfl⟩
  · cases h with
    | totp _ _ hd _ _ _ => exact ⟨hd, _, _, rfl⟩

/-- Settles O20: the code such a command writes is well formed, and the bookkeeping keeps the results. -/
theorem codeStringSpellsCode : Obligations.CodeStringSpellsCode := by
  intro i s t hi hexec hcode
  obtain ⟨s', heff, rfl⟩ := effect_of_exec_success hexec hcode
  obtain ⟨hd, v, u, rfl⟩ := heff.writes_code hi
  exact ⟨writeCode_codeWellFormed u ((digitsOutOfBounds_eq_false_iff s).mp hd), rfl⟩

end Sys2Proof.Machine

end

section

/-! PROOFS. The HOTP command (45_hotp.md R240-R242): its results and errors, that it does not read CFG.ALG, and that
it equals the staged ENCODE, HMAC, TRUNC, FORMAT. -/

namespace Sys2Proof.Machine

/-! ## The HOTP command -/

section

variable {s : State}

/-- HOTP with both checks passed runs the pipeline under SHA-1 (R240, R241). -/
theorem exec_hotp_of_checks (hd : digitsOutOfBounds s = false) (hk : keyLenBad s = false) :
    exec .hotp s = complete (runPipeline .sha1 (counterOf s) s) := by
  simp [exec, execHotp, hd, hk]

theorem exec_hotp_of_badDigits (hd : digitsOutOfBounds s = true) :
    exec .hotp s = .next (afterError .outOfBounds s) := by
  simp [exec, execHotp, hd, raiseError, finish_eq_afterError]

theorem exec_hotp_of_badKeyLen (hd : digitsOutOfBounds s = false) (hk : keyLenBad s = true) :
    exec .hotp s = .next (afterError .badKeyLen s) := by
  simp [exec, execHotp, hd, hk, raiseError, finish_eq_afterError]

end

/-- Settles O17: each clause is one outcome of the two checks, in their order. -/
theorem hotpGeneratesCounterCode : Obligations.HotpGeneratesCounterCode := by
  refine ⟨rfl, fun s hd hk => ⟨_, _, _, rfl, rfl, rfl, ?_⟩, fun s hd => ?_, fun s hd hk => ?_⟩
  · exact (exec_hotp_of_checks (digitsOutOfBounds_of_legal hd) ((keyLenBad_eq_false_iff s).mpr hk)).trans
      (complete_eq_afterSuccess _)
  · exact exec_hotp_of_badDigits ((digitsOutOfBounds_iff s).mpr hd)
  · exact exec_hotp_of_badKeyLen (digitsOutOfBounds_of_legal hd) ((keyLenBad_iff s).mpr hk)

/-! ## Another algorithm selector -/

/-- The state with another CFG.ALG. -/
def withAlg (a : BitVec 2) (s : State) : State := { s with ops := { s.ops with alg := a } }

/-- HOTP does the same with another selector, which it keeps: neither its checks nor its writes read it (R240). -/
theorem exec_hotp_withAlg (a : BitVec 2) (s : State) :
    exec .hotp (withAlg a s) = mapNext (withAlg a) (exec .hotp s) := by
  cases hd : digitsOutOfBounds s with
  | true => rw [exec_hotp_of_badDigits hd, exec_hotp_of_badDigits (s := withAlg a s) hd]; rfl
  | false =>
    cases hk : keyLenBad s with
    | true => rw [exec_hotp_of_badKeyLen hd hk, exec_hotp_of_badKeyLen (s := withAlg a s) hd hk]; rfl
    | false => rw [exec_hotp_of_checks hd hk, exec_hotp_of_checks (s := withAlg a s) hd hk]; rfl

/-- A command reports no error but those it checks for (60_exceptions.md R277). -/
theorem reportedError_ne_of_not_checked {i : Instr} {e : ErrorCode} (he : e ≠ .none) (hi : e ∉ checksOf i)
    (s : State) : reportedError i s ≠ e := by
  simp only [reportedError]
  cases hfind : (checksOf i).find? (errorApplies i s) with
  | none => exact he.symm
  | some e' => exact fun heq => hi (heq ▸ List.mem_of_find?_eq_some hfind)

/-- Settles O18: HOTP's outcome keeps the selector and is otherwise the same, and R277 lists no check of it. -/
theorem hotpIgnoresAlg : Obligations.HotpIgnoresAlg := by
  intro s a
  obtain ⟨t, ht, hcode⟩ : ∃ t, exec .hotp s = .next t ∧ t.status.errCode = reportedError .hotp s :=
    exec_reports .hotp s
  refine ⟨t, ht, ?_, ?_⟩
  · exact (exec_hotp_withAlg a s).trans (congrArg (mapNext (withAlg a)) ht)
  · rw [hcode]
    exact reportedError_ne_of_not_checked (by decide) (by decide) s

/-! ## Commands issued one after another -/

/-- The state a successful command leaves that was issued while idle and makes the given writes. -/
def afterIssue (i : Instr) (write : State → State) (s : State) : State :=
  finish .none (write (accept (encode i) s))

/-- A command issued while idle runs with its own word in progress (R140, R141). -/
theorem issue_eq_exec (i : Instr) (s : State) : issue i s = exec i (accept (encode i) s) :=
  completion_of_decode (decode_encode i)

section

variable {s : State}

/-- ENCODE issued, which makes no check (R161). -/
theorem issue_encode : issue .encode s = .next (afterIssue .encode (writeMessage (counterOf s)) s) :=
  issue_eq_exec .encode s

/-- HMAC issued with the message m in MSG and every check passed (R200). -/
theorem issue_hmac_of_checks {a : Alg} {m : List Byte} (ha : selectAlg s.ops.alg = some a)
    (hk : keyLenBad s = false) (hv : s.status.msgValid = true) (hm : messageOf s = m) :
    issue .hmac s = .next (afterIssue .hmac (writeDigest a (hmac a (secretOf s) m)) s) := by
  rw [issue_eq_exec, ← hm]
  exact exec_hmac_of_checks ha hk hv

/-- TRUNC issued with the digest d in DIG (R221). -/
theorem issue_trunc_of_digest {d : List Byte} (hv : s.status.digestValid = true) (hd : digestOf s = d) :
    issue .trunc s = .next (afterIssue .trunc (writeTrunc (dynamicTruncate d)) s) := by
  rw [issue_eq_exec, ← hd]
  exact exec_trunc_of_digest hv

/-- FORMAT issued with both checks passed (R231). -/
theorem issue_format_of_checks (hd : digitsOutOfBounds s = false) (hv : s.status.truncValid = true) :
    issue .format s = .next (afterIssue .format (writeCode s.res.trunc s.ops.digits) s) := by
  rw [issue_eq_exec]
  exact exec_format_of_checks hd hv

end

/-- The message buffer holds exactly the eight bytes written to it (R161). -/
theorem messageOf_afterIssue (i : Instr) (c : DWord) (s : State) :
    messageOf (afterIssue i (writeMessage c) s) = be64 c :=
  fillBuffer_toList_of_length (be64_length c)

/-- The digest buffer, read to DLEN, is the digest written to it (R200, R221). -/
theorem digestOf_afterIssue (i : Instr) {a : Alg} {d : List Byte} (hd : d.length = digestBytes a) (s : State) :
    digestOf (afterIssue i (writeDigest a d) s) = d := by
  simp only [digestOf, afterIssue, finish_res, writeDigest_res, digestBytes_toNat]
  rw [← hd]
  exact fillBuffer_take 32 d (hd ▸ digestBytes_le a)

/-- After any command that writes be64(c) to MSG, HMAC, TRUNC and FORMAT in this order end without an error and leave
what the fused pipeline leaves, LASTOP and the command word apart. -/
theorem staged_after_message {s : State} {a : Alg} (ha : selectAlg s.ops.alg = some a)
    (hd : digitsOutOfBounds s = false) (hk : keyLenBad s = false) (i : Instr) (c : DWord) :
    ∃ s2 s3 s4 : State,
      issue .hmac (afterIssue i (writeMessage c) s) = .next s2 ∧ s2.status.errCode = .none ∧
      issue .trunc s2 = .next s3 ∧ s3.status.errCode = .none ∧
      issue .format s3 = .next s4 ∧ s4.status.errCode = .none ∧
      forgetLastOp s4 = forgetLastOp (finish .none (runPipeline a c s)) :=
  ⟨_, _, _, issue_hmac_of_checks ha hk rfl (messageOf_afterIssue i c s), rfl,
    issue_trunc_of_digest rfl (digestOf_afterIssue .hmac (hmac_length a _ _) _), rfl,
    issue_format_of_checks hd rfl, rfl, rfl⟩

/-- Settles O21: HOTP ran the pipeline on the counter that ENCODE writes to MSG, and ALG 0 selects its SHA-1; the
pipeline's writes rest on neither the selector nor the word accepted. -/
theorem hotpEqualsStagedSequence : Obligations.HotpEqualsStagedSequence := by
  intro s t ht hcode
  obtain ⟨s', heff, rfl⟩ := effect_of_exec_success ((issue_eq_exec .hotp s).symm.trans ht) hcode
  cases heff with
  | hotp hd hk =>
    obtain ⟨s2, s3, s4, hstaged⟩ :=
      staged_after_message (s := withAlg 0#2 s) rfl hd hk .encode (counterOf s)
    exact ⟨_, s2, s3, s4, issue_encode, rfl, hstaged⟩

end Sys2Proof.Machine

end

section

/-! PROOFS. The time-to-counter derivation and the commands that use it (46_totp.md R250-R254): the exact quotient,
TENCODE, the results and errors of TOTP, that TOTP equals the staged TENCODE, HMAC, TRUNC, FORMAT, and that it does the
same for every timestamp of a step window. -/

namespace Sys2Proof.Machine

/-! ## The time-to-counter derivation -/

/-- The quotient of a 64-bit number fits its 64 bits, so the counter is the quotient itself (R250). -/
theorem counter_toNat (t : DWord) (n : Nat) : (BitVec.ofNat 64 (t.toNat / n)).toNat = t.toNat / n :=
  Nat.mod_eq_of_lt ((Nat.div_le_self _ _).trans_lt t.isLt)

/-- Settles O10: the three answers of the derivation; a timestamp that is not negative is its own pattern as a number,
below 2^63, and a quotient is no larger. -/
theorem timeCounterIsExactQuotient : Obligations.TimeCounterIsExactQuotient := by
  refine fun t s => ⟨fun hneg => ?_, fun hpos hs => ?_, fun hpos hs => ?_⟩
  · exact timeCounter_negative (t.msb_eq_toInt.trans (decide_eq_true hneg))
  · have hmsb : t.msb = false := t.msb_eq_toInt.trans (decide_eq_false hpos.not_gt)
    obtain rfl : s = 0#32 := BitVec.eq_of_toNat_eq hs
    exact timeCounter_zeroStep hmsb
  · have hmsb : t.msb = false := t.msb_eq_toInt.trans (decide_eq_false hpos.not_gt)
    have hstep : s ≠ 0#32 := fun h => hs (congrArg BitVec.toNat h)
    have hbound : 2 * t.toNat < 2 ^ 64 := BitVec.msb_eq_false_iff_two_mul_lt.mp hmsb
    have hquot : t.toNat / s.toNat ≤ t.toNat := Nat.div_le_self _ _
    refine ⟨_, timeCounter_quotient hmsb hstep, ?_, ?_⟩
    · rw [counter_toNat, BitVec.toInt_eq_toNat_of_msb hmsb]
      rfl
    · rw [counter_toNat]
      omega

section

variable {s : State}

/-- The derivation on the registers: TIME_HI[31] = 1 is a negative timestamp. -/
theorem timeCounter_of_negTime (hneg : s.ops.timeHi.getLsbD 31 = true) :
    timeCounter (timestampOf s) s.ops.timeStep = .error .negTimestamp :=
  timeCounter_negative ((timestampOf_msb s).trans hneg)

theorem timeCounter_of_zeroStep (hpos : s.ops.timeHi.getLsbD 31 = false) (hstep : s.ops.timeStep = 0#32) :
    timeCounter (timestampOf s) s.ops.timeStep = .error .badStep := by
  rw [hstep]
  exact timeCounter_zeroStep ((timestampOf_msb s).trans hpos)

/-- The derivation on the registers: the counter is TIME_HI:TIME_LO div STEP. -/
theorem timeCounter_of_registers (hpos : s.ops.timeHi.getLsbD 31 = false) (hstep : s.ops.timeStep ≠ 0#32) :
    timeCounter (timestampOf s) s.ops.timeStep = .ok (BitVec.ofNat 64
      ((s.ops.timeHi.toNat * 2 ^ 32 + s.ops.timeLo.toNat) / s.ops.timeStep.toNat)) := by
  rw [timeCounter_quotient ((timestampOf_msb s).trans hpos) hstep, timestampOf_toNat]

end

/-! ## The TENCODE command -/

section

variable {s : State}

/-- TENCODE with a counter derived writes it to MSG (R251). -/
theorem exec_tencode_of_counter {c : DWord} (hc : timeCounter (timestampOf s) s.ops.timeStep = .ok c) :
    exec .tencode s = complete (writeMessage c s) := by
  simp [exec, execTencode, hc]

theorem exec_tencode_of_noCounter {e : ErrorCode}
    (hc : timeCounter (timestampOf s) s.ops.timeStep = .error e) :
    exec .tencode s = .next (afterError e s) := by
  simp [exec, execTencode, hc, raiseError, finish_eq_afterError (timeCounter_error hc)]

end

/-- Settles O11: each clause is one answer of the derivation. -/
theorem tencodeWritesDerivedCounter : Obligations.TencodeWritesDerivedCounter := by
  refine ⟨rfl, fun s hpos hstep => ?_, fun s hneg => ?_, fun s hpos hstep => ?_⟩
  · exact (exec_tencode_of_counter (timeCounter_of_registers hpos hstep)).trans (complete_eq_afterSuccess _)
  · exact exec_tencode_of_noCounter (timeCounter_of_negTime hneg)
  · exact exec_tencode_of_noCounter (timeCounter_of_zeroStep hpos hstep)

/-! ## The TOTP command -/

section

variable {s : State} {c : DWord} {a : Alg}

/-- TOTP with every check passed runs the pipeline on the derived counter under the selected algorithm (R252). -/
theorem exec_totp_of_checks (hd : digitsOutOfBounds s = false)
    (hc : timeCounter (timestampOf s) s.ops.timeStep = .ok c) (ha : selectAlg s.ops.alg = some a)
    (hk : keyLenBad s = false) : exec .totp s = complete (runPipeline a c s) := by
  simp [exec, execTotp, hd, hc, ha, hk]

theorem exec_totp_of_badDigits (hd : digitsOutOfBounds s = true) :
    exec .totp s = .next (afterError .outOfBounds s) := by
  simp [exec, execTotp, hd, raiseError, finish_eq_afterError]

theorem exec_totp_of_noCounter {e : ErrorCode} (hd : digitsOutOfBounds s = false)
    (hc : timeCounter (timestampOf s) s.ops.timeStep = .error e) :
    exec .totp s = .next (afterError e s) := by
  simp [exec, execTotp, hd, hc, raiseError, finish_eq_afterError (timeCounter_error hc)]

theorem exec_totp_of_unknownAlg (hd : digitsOutOfBounds s = false)
    (hc : timeCounter (timestampOf s) s.ops.timeStep = .ok c) (ha : selectAlg s.ops.alg = none) :
    exec .totp s = .next (afterError .unsupportedAlgorithm s) := by
  simp [exec, execTotp, hd, hc, ha, raiseError, finish_eq_afterError]

theorem exec_totp_of_badKeyLen (hd : digitsOutOfBounds s = false)
    (hc : timeCounter (timestampOf s) s.ops.timeStep = .ok c) (ha : selectAlg s.ops.alg = some a)
    (hk : keyLenBad s = true) : exec .totp s = .next (afterError .badKeyLen s) := by
  simp [exec, execTotp, hd, hc, ha, hk, raiseError, finish_eq_afterError]

end

/-- The algorithm each selector value names, with its digest length as DLEN holds it (30_encoding.md R120,
42_hmac_engine.md R200). -/
theorem alg_and_digestLen_of_selectAlg {x : BitVec 2} {a : Alg} (h : selectAlg x = some a) :
    (x = 0#2 → a = .sha1 ∧ BitVec.ofNat 8 (digestBytes a) = 20#8) ∧
      (x = 1#2 → a = .sha256 ∧ BitVec.ofNat 8 (digestBytes a) = 32#8) := by
  constructor
  · rintro rfl
    obtain rfl : .sha1 = a := Option.some.inj h
    exact ⟨rfl, rfl⟩
  · rintro rfl
    obtain rfl : .sha256 = a := Option.some.inj h
    exact ⟨rfl, rfl⟩

/-- Settles O19: each clause is one outcome of the five checks, in their order. -/
theorem totpGeneratesTimeCode : Obligations.TotpGeneratesTimeCode := by
  refine ⟨rfl, fun s hd hpos hstep halg hk => ?_, fun s hd => ?_, fun s h6 h8 hneg => ?_,
    fun s h6 h8 hpos hstep => ?_, fun s h6 h8 hpos hstep halg => ?_, fun s h6 h8 hpos hstep halg hk => ?_⟩
  · obtain ⟨a, ha⟩ := selectAlg_of_supported halg
    obtain ⟨hsha1, hsha256⟩ := alg_and_digestLen_of_selectAlg ha
    refine ⟨a, _, _, _, _, hsha1, hsha256, rfl, rfl, rfl, ?_⟩
    exact (exec_totp_of_checks (digitsOutOfBounds_of_legal hd) (timeCounter_of_registers hpos hstep) ha
      ((keyLenBad_eq_false_iff s).mpr hk)).trans (complete_eq_afterSuccess _)
  · exact exec_totp_of_badDigits ((digitsOutOfBounds_iff s).mpr hd)
  all_goals have hd := (digitsOutOfBounds_eq_false_iff s).mpr ⟨h6, h8⟩
  · exact exec_totp_of_noCounter hd (timeCounter_of_negTime hneg)
  · exact exec_totp_of_noCounter hd (timeCounter_of_zeroStep hpos hstep)
  · exact exec_totp_of_unknownAlg hd (timeCounter_of_registers hpos hstep) (selectAlg_of_unsupported halg)
  · obtain ⟨_, ha⟩ := selectAlg_of_supported halg
    exact exec_totp_of_badKeyLen hd (timeCounter_of_registers hpos hstep) ha ((keyLenBad_iff s).mpr hk)

/-! ## The staged sequence -/

/-- TENCODE issued with a counter derived (R251). -/
theorem issue_tencode_of_counter {s : State} {c : DWord}
    (hc : timeCounter (timestampOf s) s.ops.timeStep = .ok c) :
    issue .tencode s = .next (afterIssue .tencode (writeMessage c) s) := by
  rw [issue_eq_exec]
  exact exec_tencode_of_counter hc

/-- Settles O22: TOTP ran the pipeline on the counter that TENCODE writes to MSG, and HMAC selects the same algorithm;
the pipeline's writes do not rest on the word accepted. -/
theorem totpEqualsStagedSequence : Obligations.TotpEqualsStagedSequence := by
  intro s t ht hcode
  obtain ⟨s', heff, rfl⟩ := effect_of_exec_success ((issue_eq_exec .totp s).symm.trans ht) hcode
  cases heff with
  | totp a c hd hc ha hk =>
    obtain ⟨s2, s3, s4, hstaged⟩ := staged_after_message (s := s) ha hd hk .tencode c
    exact ⟨_, s2, s3, s4, issue_tencode_of_counter hc, rfl, hstaged⟩

/-! ## Another timestamp -/

/-- The state with another timestamp in TIME_HI and TIME_LO. -/
def withTime (hi lo : Word) (s : State) : State := { s with ops := { s.ops with timeHi := hi, timeLo := lo } }

/-- Two timestamps that are not negative and have one quotient by STEP give one answer of the derivation: STEP = 0 is
rejected for both (R250, R254). -/
theorem timeCounter_withTime {s : State} {hi lo : Word} (hpos : s.ops.timeHi.getLsbD 31 = false)
    (hpos' : hi.getLsbD 31 = false)
    (hwindow : (hi.toNat * 2 ^ 32 + lo.toNat) / s.ops.timeStep.toNat =
      (s.ops.timeHi.toNat * 2 ^ 32 + s.ops.timeLo.toNat) / s.ops.timeStep.toNat) :
    timeCounter (timestampOf (withTime hi lo s)) s.ops.timeStep = timeCounter (timestampOf s) s.ops.timeStep := by
  by_cases hstep : s.ops.timeStep = 0#32
  · rw [timeCounter_of_zeroStep hpos hstep]
    exact timeCounter_of_zeroStep (s := withTime hi lo s) hpos' hstep
  · rw [timeCounter_of_registers hpos hstep, ← hwindow]
    exact timeCounter_of_registers (s := withTime hi lo s) hpos' hstep

/-- TOTP does the same with another timestamp that gives the same answer of the derivation, and keeps it: no other
check and no write reads the timestamp (R252). -/
theorem exec_totp_withTime {s : State} {hi lo : Word}
    (htime : timeCounter (timestampOf (withTime hi lo s)) s.ops.timeStep =
      timeCounter (timestampOf s) s.ops.timeStep) :
    exec .totp (withTime hi lo s) = mapNext (withTime hi lo) (exec .totp s) := by
  cases hd : digitsOutOfBounds s with
  | true => rw [exec_totp_of_badDigits hd, exec_totp_of_badDigits (s := withTime hi lo s) hd]; rfl
  | false =>
    cases hc : timeCounter (timestampOf s) s.ops.timeStep with
    | error e =>
      rw [exec_totp_of_noCounter hd hc, exec_totp_of_noCounter (s := withTime hi lo s) hd (htime.trans hc)]; rfl
    | ok c =>
      have hc' := htime.trans hc
      cases ha : selectAlg s.ops.alg with
      | none =>
        rw [exec_totp_of_unknownAlg hd hc ha, exec_totp_of_unknownAlg (s := withTime hi lo s) hd hc' ha]; rfl
      | some a =>
        cases hk : keyLenBad s with
        | true =>
          rw [exec_totp_of_badKeyLen hd hc ha hk, exec_totp_of_badKeyLen (s := withTime hi lo s) hd hc' ha hk]; rfl
        | false =>
          rw [exec_totp_of_checks hd hc ha hk, exec_totp_of_checks (s := withTime hi lo s) hd hc' ha hk]; rfl

/-- Settles O23: TOTP depends on the timestamp through the derived counter alone. -/
theorem totpIdempotentWithinStep : Obligations.TotpIdempotentWithinStep := by
  intro s hi lo hpos hpos' hwindow
  obtain ⟨t, ht, -⟩ := exec_reports .totp s
  exact ⟨t, ht, (exec_totp_withTime (timeCounter_withTime hpos hpos' hwindow)).trans
    (congrArg (mapNext (withTime hi lo)) ht)⟩

end Sys2Proof.Machine

end

section

/-! PROOFS. Errors (60_exceptions.md R270-R277): what one changes, which one is reported and that it repeats; the
interrupt (R280). -/

namespace Sys2Proof.Machine

/-! ## What an error changes -/

/-- A command that ends with an error leaves the state before it with the report in STATUS: an effect ends with code
0. -/
theorem exec_error_eq_afterError {i : Instr} {s t : State} (h : exec i s = .next t)
    (he : t.status.errCode ≠ .none) : t = afterError t.status.errCode s := by
  rcases exec_cases i s with ⟨e, hne, hexec⟩ | ⟨s', -, hexec⟩
  · obtain rfl : finish e s = t := Host.Outcome.next.inj (hexec.symm.trans h)
    exact finish_eq_afterError hne s
  · obtain rfl : finish .none s' = t := Host.Outcome.next.inj (hexec.symm.trans h)
    exact absurd rfl he

/-- Settles O25: a completion is that of a command or of an illegal word. -/
theorem errorReportChangesOnlyStatus : Obligations.ErrorReportChangesOnlyStatus := by
  refine ⟨fun i s t h he => exec_error_eq_afterError h he, fun s t h he => ?_⟩
  cases hd : decode s.cmd with
  | some i => exact exec_error_eq_afterError ((completion_of_decode hd).symm.trans h) he
  | none =>
    obtain rfl : afterError .illegalCmd s = t := Host.Outcome.next.inj ((completion_of_illegal hd).symm.trans h)
    rfl

/-! ## Which error is reported -/

/-- The code a command ends with is the one it reports by its checks (R276, R277). -/
theorem errCode_eq_reportedError {i : Instr} {s t : State} (h : exec i s = .next t) :
    t.status.errCode = reportedError i s := by
  obtain ⟨u, hu, hcode⟩ := exec_reports i s
  obtain rfl : u = t := Host.Outcome.next.inj (hu.symm.trans h)
  exact hcode

/-- A command with a cause of error standing reports the first one and changes nothing else (R273, R276). -/
theorem exec_of_reportedError {i : Instr} {s : State} (he : reportedError i s ≠ .none) :
    exec i s = .next (afterError (reportedError i s) s) := by
  obtain ⟨t, ht, -⟩ := exec_reports i s
  rw [← errCode_eq_reportedError ht] at he ⊢
  rw [ht, ← exec_error_eq_afterError ht he]

/-- Settles O27: R276 orders the checks of each command, which makes them in that order. (`errorPriority` is the name
of that order.) -/
theorem errorPriority_holds : Obligations.ErrorPriority := by
  refine ⟨fun i => ?order, fun s hillegal => ?illegal, fun i s => exec_reports i s⟩
  case order => cases i <;> decide
  case illegal => exact ⟨_, completion_of_illegal hillegal, rfl⟩

/-! ## Errors repeat -/

/-- The causes of error are those of the operand registers and of the valid flags a command reads (R270). -/
theorem errorApplies_congr (i : Instr) {s s' : State} (hops : s'.ops = s.ops)
    (hmsg : s'.status.msgValid = s.status.msgValid) (hdig : s'.status.digestValid = s.status.digestValid)
    (htrunc : s'.status.truncValid = s.status.truncValid) : errorApplies i s' = errorApplies i s := by
  funext e
  cases e with
  | sequence => cases i <;> simp only [errorApplies, hmsg, hdig, htrunc]
  | _ => simp only [errorApplies, hops]

/-- Settles O26: the causes that stood still stand, in the state the error left as in any with those operands and
flags. -/
theorem errorsRepeat : Obligations.ErrorsRepeat := by
  intro i s t h he
  obtain ⟨e, rfl⟩ : ∃ e, t = afterError e s := ⟨_, exec_error_eq_afterError h he⟩
  have hcode : e = reportedError i s := errCode_eq_reportedError h
  have hrepeat : ∀ s' : State, s'.ops = s.ops → s'.status.msgValid = s.status.msgValid →
      s'.status.digestValid = s.status.digestValid → s'.status.truncValid = s.status.truncValid →
      exec i s' = .next (afterError e s') := by
    intro s' hops hmsg hdig htrunc
    obtain rfl : reportedError i s' = e := by
      rw [hcode, reportedError, reportedError, errorApplies_congr i hops hmsg hdig htrunc]
    exact exec_of_reportedError he
  exact ⟨hrepeat (afterError e s) rfl rfl rfl rfl, hrepeat⟩

/-! ## The interrupt -/

/-- A completion sets DONE and keeps IRQ_EN, so it leaves the interrupt as enabled (R280). -/
theorem completion_irq (s : State) : ∃ t, completion s = .next t ∧ irq t = s.irqEn := by
  rcases completion_cases s with ⟨e, -, h⟩ | ⟨i, s', -, heff, h⟩
  · exact ⟨_, h, Bool.and_true s.irqEn⟩
  · obtain ⟨hirq, -⟩ := heff.keeps
    exact ⟨_, h, (Bool.and_true s'.irqEn).trans hirq⟩

/-- Settles O44. -/
theorem interruptFollowsDone : Obligations.InterruptFollowsDone := by
  refine ⟨fun _ => rfl, completion_irq, fun s v hr hv => ?status, fun s v hr hv => ?ctrl⟩
  case status => exact ⟨_, statusWriteClearsEvents s v hr, by simp [irq, hv]⟩
  case ctrl => exact ⟨_, busWrite_register hr .ctrl v, (congrArg (· && s.status.done) hv).trans (Bool.false_and _)⟩

end Sys2Proof.Machine

end

section

/-! PROOFS. Reset (70_reset_and_hazards.md R300-R303): the state after it, what a core under reset does and that it
admits no access. -/

namespace Sys2Proof.Machine

/-! ## The state after reset -/

/-- A word of a cleared buffer is 0. -/
@[simp] theorem wordAt_replicate_zero (n k : Nat) : wordAt (Vector.replicate n 0#8) k = 0#32 := by
  simp only [wordAt, byteAt_replicate_zero]
  decide

/-- Settles O50: the registers that show a buffer by its bytes, the others field by field. -/
theorem resetValues : Obligations.ResetValues := by
  refine ⟨fun r => ?_, rfl, rfl, rfl, rfl, byteAt_replicate_zero 128, byteAt_replicate_zero 8,
    byteAt_replicate_zero 32, byteAt_replicate_zero 8⟩
  cases r with
  | msgHi | msgLo | codeStr0 | codeStr1 | digest k => exact wordAt_replicate_zero _ _
  | _ => rfl

/-- Settles O52. -/
theorem invariantHoldsAtReset : Obligations.InvariantHoldsAtReset := inv_reset

/-! ## No access under reset -/

/-- A statement that accesses the window under reset faults the host program (R303). -/
theorem hostStatement_access_of_reset {s : State} {st : Stmt} {off size x : Nat} {v : Word} (hr : s.rst = true)
    (hst : st = .wr off size v ∨ st = .rd off size x) : hostStatement st s = .fault .accessInReset := by
  rcases hst with rfl | rfl
  · simp only [hostStatement, busWrite, hr, if_true]
  · simp only [hostStatement, busRead, hr, if_true]

/-- Settles O34. -/
theorem accessUnderResetFaults : Obligations.AccessUnderResetFaults := by
  intro s rest off size x v hturns hr hh hprog
  rcases hprog with hp | hp
  · exact (step_hostStatement hturns hh hp).trans (hostStatement_access_of_reset (x := x) hr (.inl rfl))
  · exact (step_hostStatement hturns hh hp).trans (hostStatement_access_of_reset (v := v) hr (.inr rfl))

/-! ## The core under reset -/

theorem coreAtReset.of_sameCore {s t : State} (h : coreAtReset s) (hst : sameCore s t) : coreAtReset t := by
  rw [hst]
  exact h.of_fields rfl rfl rfl rfl rfl

/-- No turn of the host changes a core under reset, which admits no access (R303). -/
theorem hostTurn_sameCore_of_reset {s t : State} (hr : s.rst = true) (h : hostTurn s = .next t) :
    sameCore s t := by
  rcases hostTurn_next_cases h with rfl | ⟨r, v, hr', -⟩ | ⟨r, x, -, rfl⟩ | ⟨pc, rfl⟩ | rfl
  case inr.inl => simp [hr] at hr'
  all_goals rfl

/-- A step keeps the reset values of a core under reset: the host has no access, the sequencer no completion. -/
theorem step_keeps_coreAtReset {s t : State} (hr : s.rst = true) (hs : coreAtReset s) (h : step s = .next t) :
    coreAtReset t := by
  have hdrop : coreAtReset (dropTurn s) := hs.of_sameCore rfl
  rcases step_next_cases h with ⟨-, hhost⟩ | ⟨-, -, hr', -⟩ | rfl | ⟨-, level, rfl⟩
  · exact hdrop.of_sameCore (hostTurn_sameCore_of_reset hr hhost)
  · simp [hr] at hr'
  · exact hdrop
  · exact coreAtReset_resetCore level _

/-- An edge of `rst` leaves the core at its reset values and touches nothing else; a release is an edge only under
reset (R300). -/
theorem resetTurn_of_edge {level : Bool} {s : State} (h : level = true ∨ s.rst = true) :
    ∃ t, resetTurn level s = .next t ∧ coreAtReset t ∧ irq t = false ∧ t.rst = level ∧ t.host = s.host ∧
      t.turns = s.turns := by
  refine ⟨resetCore level s, ?_, coreAtReset_resetCore level s, rfl, rfl, rfl, rfl⟩
  rcases h with h | h <;> simp [resetTurn, h]

/-- Settles O51. -/
theorem resetClearsAndAbandons : Obligations.ResetClearsAndAbandons := by
  refine ⟨fun s rest hturns => ?assert, fun s t hr hs h => ?hold, fun s rest hturns hr => ?release,
    fun s rest hturns hr => ?core⟩
  case assert =>
    rw [step_turn hturns]
    exact resetTurn_of_edge (.inl rfl)
  case hold =>
    have ht := step_keeps_coreAtReset hr hs h
    exact ⟨ht, ht.irq_low⟩
  case release =>
    rw [step_turn hturns]
    exact resetTurn_of_edge (s := { s with turns := rest }) (.inr hr)
  case core => simp [step_turn hturns, takeTurn, coreTurn, hr]

end Sys2Proof.Machine

end
